-- ==== Sys2Proof/Word.lean ====
section
/-! DEFINITION. The word types of the block (spec/00_scope.md rule R9). -/

namespace Sys2Proof

/-- A byte: an unsigned 8-bit value (R9). -/
abbrev Byte := BitVec 8

/-- A host request word: 32 bits in format H (R60). -/
abbrev Word := BitVec 32

/-- A mode tag: `TAG_BITS` = 3 bits (R6). -/
abbrev Tag := BitVec 3

end Sys2Proof
end

