-- ==== Sys2Proof/Config.lean ====
section
/-! DEFINITION. The implementation parameters of spec/00_scope.md rule R6, their constraints (R7), the test
configuration (R8), and the model's free values. -/

namespace Sys2Proof

/-- The parameters of R6, every row of its table an argument of the model. `MAP_SIZE` is the length of `CHARMAP`
(log entry 18) and `LAST_POS` is `SLOTS - 1` (R7), so neither can disagree with its partner. -/
structure Config where
  /-- `N_ROWS`: the number of rows of the row buffer. -/
  nRows : Nat
  /-- `SLOTS`: the display positions SET_STRING fills. -/
  slots : Nat
  /-- `CHARMAP[0 .. MAP_SIZE-1]`, the read-only character map (R32). -/
  charMap : List Byte
  /-- `BLANK_INDEX`: the map index of the blank glyph. -/
  blankIndex : Nat
  /-- `DP_MASK`: the decimal-point segment bit. -/
  dpMask : Byte
  /-- `CMD_TAG`: the command-mode tag. -/
  cmdTag : Tag
  /-- `WRITE_TAG`: the default mode tag of a data frame. -/
  writeTag : Tag
  /-- `PAD_BIT`: the value of a command frame's padding bit. -/
  padBit : Bool
  /-- `CMD_SYS_EN`: the system-enable code. -/
  cmdSysEn : Byte
  /-- `CMD_OSC`: the oscillator-select code. -/
  cmdOsc : Byte
  /-- `CMD_BIAS`: the bias-select code. -/
  cmdBias : Byte
  /-- `CMD_LCD_ON`: the display-on code. -/
  cmdLcdOn : Byte
  /-- `CMD_LCD_OFF`: the display-off code. -/
  cmdLcdOff : Byte
  /-- `DP_CHAR`: the code of '.'. -/
  dpChar : Byte
  /-- `ZERO_CHAR`: the code of '0'. -/
  zeroChar : Byte
  /-- `TERMINATOR`: the end-of-string code. -/
  terminator : Byte
  /-- `TAG_BITS`: bits in a mode tag. -/
  tagBits : Nat
  /-- `CMD_BITS`: bits of command code in a command frame. -/
  cmdBits : Nat
  /-- `PAD_BITS`: padding bits in a command frame. -/
  padBits : Nat
  /-- `ADDR_BITS`: address bits in a data frame. -/
  addrBits : Nat
  /-- `DATA_BITS`: payload bits in a data frame. -/
  dataBits : Nat
  deriving DecidableEq, Repr

namespace Config

/-- `MAP_SIZE`: the number of entries of the character map. -/
def mapSize (c : Config) : Nat := c.charMap.length

/-- `LAST_POS = SLOTS - 1` (R6, R7). -/
def lastPos (c : Config) : Nat := c.slots - 1

/-- The values R6 makes normative for the wire: the command tag and the five bit counts (log entry 19). -/
abbrev FixedWire (c : Config) : Prop :=
  c.cmdTag = 0b100#3 ∧ c.tagBits = 3 ∧ c.cmdBits = 8 ∧ c.padBits = 1 ∧ c.addrBits = 6 ∧ c.dataBits = 8

/-- A legal configuration: the constraints of R7 (those on bytes, tags and the padding bit hold by type) and the
normative wire values of R6. -/
abbrev Legal (c : Config) : Prop :=
  1 ≤ c.nRows ∧ 1 ≤ c.slots ∧ 1 ≤ c.mapSize ∧ c.mapSize ≤ 256 ∧ c.blankIndex < c.mapSize ∧ c.FixedWire

/-- D21 (92_eei_decisions.md): the five command codes are distinct. R7 does not ask for it, so it is no part
of `Legal` (log entry 13). -/
abbrev DistinctCodes (c : Config) : Prop :=
  [c.cmdSysEn, c.cmdOsc, c.cmdBias, c.cmdLcdOn, c.cmdLcdOff].Nodup

/-- `DP_CHAR ≠ TERMINATOR`, which R145 says of the two codes. R7 does not ask for it, so it is no part of `Legal`
(log entry 21). -/
abbrev PointIsNoTerminator (c : Config) : Prop := c.dpChar ≠ c.terminator

/-- The codes D13 chooses for '.', '0' and the terminator. PRESUMED: ASCII, which the spec takes from general
knowledge and no claim may treat as normative (93_implementation_defined.md G1; log entry 20). -/
abbrev AsciiCodes (c : Config) : Prop := c.dpChar = 0x2E#8 ∧ c.zeroChar = 0x30#8 ∧ c.terminator = 0x00#8

/-- The free value of a line whose level the spec leaves unspecified (R31, I18): the `k`-th level drawn.
Nothing constrains it (log entry 5). -/
opaque freeLevel : Nat → Bool

/-- The test map `CHARMAP_TC` of R8: the identity, but 0x00 at the blank index 0x20. -/
def testMap : List Byte :=
  (List.range 127).map fun i => if i = 0x20 then 0x00#8 else BitVec.ofNat 8 i

/-- The test configuration `TC` of R8. It is no claim about real glyphs or codes. -/
def tc : Config where
  nRows := 16
  slots := 6
  charMap := testMap
  blankIndex := 0x20
  dpMask := 0x80#8
  cmdTag := 0b100#3
  writeTag := 0b101#3
  padBit := false
  cmdSysEn := 0x01#8
  cmdOsc := 0x18#8
  cmdBias := 0x29#8
  cmdLcdOn := 0x03#8
  cmdLcdOff := 0x02#8
  dpChar := 0x2E#8
  zeroChar := 0x30#8
  terminator := 0x00#8
  tagBits := 3
  cmdBits := 8
  padBits := 1
  addrBits := 6
  dataBits := 8

end Config

end Sys2Proof
end

