-- ==== Sys2Proof/Machine/State.lean ====
section
/-! DEFINITION. The state of the block (spec/10_state.md rule R20), the ways a step can stop, and reset (R31). -/

namespace Sys2Proof.Machine

/-- The three output lines (R27). -/
inductive Line where
  | cs
  | wr
  | data
  deriving DecidableEq, Repr

/-- One event of the trace (R28): a call that sets a line, or the external pin setup. -/
inductive Event where
  /-- `(L, b)`. -/
  | pin (l : Line) (b : Bool)
  /-- `PINSETUP`. -/
  | pinSetup
  deriving DecidableEq, Repr

/-- The hazard marks (R30). -/
inductive HazardMark where
  | preInitTransmit
  | onBeforeConfig
  deriving DecidableEq, Repr

/-- `HAZ` (R30): a set of marks, as one membership bit for each, so equal sets are equal data. -/
@[ext]
structure HazardSet where
  preInitTransmit : Bool
  onBeforeConfig : Bool
  deriving DecidableEq, Repr

/-- The empty set of marks. -/
def HazardSet.empty : HazardSet := { preInitTransmit := false, onBeforeConfig := false }

/-- Membership. -/
def HazardSet.has (h : HazardSet) : HazardMark → Bool
  | .preInitTransmit => h.preInitTransmit
  | .onBeforeConfig => h.onBeforeConfig

/-- A host request: a word of format H, and the byte sequence on the text port while it runs (R60, R65). -/
structure Request where
  word : Word
  text : List Byte
  deriving DecidableEq, Repr

/-- The block's state: the items of R20, then the model's own fields. -/
@[ext]
structure State where
  /-- `ROW[0 .. N_ROWS-1]` (R21), row 0 first. -/
  rows : List Byte
  /-- `LINE_CS` (R27). -/
  lineCs : Bool
  /-- `LINE_WR` (R27). -/
  lineWr : Bool
  /-- `LINE_DATA` (R27). -/
  lineData : Bool
  /-- `TRACE` (R28), oldest event first. -/
  trace : List Event
  /-- `PINS_READY`, ghost (R30). -/
  pinsReady : Bool
  /-- `OSC_SENT`, ghost (R30). -/
  oscSent : Bool
  /-- `BIAS_SENT`, ghost (R30). -/
  biasSent : Bool
  /-- `HAZ`, ghost (R30). -/
  haz : HazardSet
  /-- `REFUSED`, ghost (R30). -/
  refused : Bool
  /-- The model's own: the configuration of R6, fixed for the life of the block (R26; log entry 1). -/
  cfg : Config
  /-- The model's own: the host requests not yet served, the next one first (log entry 6). -/
  pending : List Request
  /-- The model's own: the byte sequence on the text port (R65; log entry 6). -/
  textPort : List Byte
  /-- The model's own: how many free values have been drawn (log entry 5). -/
  draws : Nat
  deriving DecidableEq, Repr

/-- The block has no exceptions and no error codes (R160): nothing raises a fault, and a fault is no outcome of
this model. Safe: the type has no value. -/
inductive Fault where
  deriving DecidableEq, Repr

/-- The ways a step can have no meaning in this model. The spec's own refusal (R162) is not one of them: it has an
effect, setting `REFUSED`, and the run goes on (log entry 7). -/
inductive Refusal where
  /-- Raised by an arm of `exec` for a table row that has no meaning yet; no arm does. Safe: the model stops. -/
  | notModelled (mnemonic : String)
  deriving DecidableEq, Repr

/-- The state right after reset (R31, R180), for every configuration, every draw of the rows and every level of
the lines: the trace empty, the ghost flags false, no mark, no refusal. -/
def State.afterReset (cfg : Config) (rows : List Byte) (cs wr data : Bool) : State where
  rows := rows
  lineCs := cs
  lineWr := wr
  lineData := data
  trace := []
  pinsReady := false
  oscSent := false
  biasSent := false
  haz := HazardSet.empty
  refused := false
  cfg := cfg
  pending := []
  textPort := []
  draws := 0

/-- The machine after reset. DESIGN CHOICE: the test configuration (log entry 2), every row 0x00 (log entry 3),
every line low (log entry 4); the spec fixes none of these. -/
def State.reset : State :=
  State.afterReset Config.tc (List.replicate Config.tc.nRows 0x00#8) false false false

/-- What a run is observed by (R189): the tuple `(TRACE, ROW, HAZ, REFUSED)`. -/
structure Observation where
  trace : List Event
  rows : List Byte
  haz : HazardSet
  refused : Bool
  deriving DecidableEq, Repr

/-- The observation of a state (R189). -/
def State.observation (s : State) : Observation where
  trace := s.trace
  rows := s.rows
  haz := s.haz
  refused := s.refused

end Sys2Proof.Machine
end

