-- ==== Sys2Proof/Machine/Flags.lean ====
section
/-! DEFINITION. The ghost state's updates: hazard marks, ghost flags and refusal (spec/60_exceptions.md rules
R162, R168). The block has no status flags (R25). -/

namespace Sys2Proof.Machine

/-- The set with one mark added. Marks are only ever added (R30). -/
def addMark (h : HazardSet) : HazardMark → HazardSet
  | .preInitTransmit => { h with preInitTransmit := true }
  | .onBeforeConfig => { h with onBeforeConfig := true }

/-- `Mark(h)` (R168). -/
def mark (h : HazardMark) (s : State) : State := { s with haz := addMark s.haz h }

/-- What R168 does on every `Pin(L, b)`. -/
def ghostPin (s : State) : State := if s.pinsReady then s else mark .preInitTransmit s

/-- First line of `GhostCommand(cmd)` (R168): display-on before both oscillator and bias is marked. -/
def ghostDisplayOn (cmd : Byte) (s : State) : State :=
  if cmd = s.cfg.cmdLcdOn ∧ ¬(s.oscSent = true ∧ s.biasSent = true) then mark .onBeforeConfig s else s

/-- Second line (R168). -/
def ghostOsc (cmd : Byte) (s : State) : State := if cmd = s.cfg.cmdOsc then { s with oscSent := true } else s

/-- Third line (R168). -/
def ghostBias (cmd : Byte) (s : State) : State := if cmd = s.cfg.cmdBias then { s with biasSent := true } else s

/-- `GhostCommand(cmd)` (R168): its three lines in order, so the mark is decided on the flags as they were before this
command. -/
def ghostCommand (cmd : Byte) (s : State) : State := ghostBias cmd (ghostOsc cmd (ghostDisplayOn cmd s))

/-- `refuse` (R11, R162): the ghost flag `REFUSED` is set and nothing else changes. It is the block's one shared
way to turn a request down; the block takes no exceptions (R160, R165). -/
def refuse (s : State) : State := { s with refused := true }

end Sys2Proof.Machine
end

