-- ==== Sys2Proof/Syntax.lean ====
section
/-! DEFINITION. The operations of the block as syntax: one constructor per row of spec/opcode_table.json. -/

namespace Sys2Proof

/-- One constructor per row of spec/opcode_table.json. Rows and positions are mathematical integers and an
address is a natural, as R12 and R92 have them; every other operand has its field's width.

The text of SET_STRING is not in the word: it stands on the text port (R65), which is `Machine.State.textPort`.

The last eight constructors have no host encoding (R73): they are what the frame encoder runs inside an
operation, each as its table row describes it (log entry 9). -/
inductive Instr where
  /-- INIT (R96). -/
  | init
  /-- SET_ROW row, data (R110). -/
  | setRow (row : Int) (data : Byte)
  /-- SET_CHAR position, character, decimalPoint (R132). -/
  | setChar (position : Int) (character : Byte) (decimalPoint : Bool)
  /-- SET_STRING startPosition, numericMode, with the text on the text port (R141). -/
  | setString (startPosition : Int) (numericMode : Bool)
  /-- FLUSH (R111). -/
  | flush
  /-- SET_ON (R112). -/
  | setOn
  /-- SET_OFF (R113). -/
  | setOff
  /-- SEND_COMMAND cmd (R91). -/
  | sendCommand (cmd : Byte)
  /-- SEND_DATA address, value, mode (R92). -/
  | sendData (address : Nat) (value : Byte) (mode : Tag)
  /-- A reserved request with `OP` = 0x0 (R62). `payload` is the rest of its word, bits 31 to 4. -/
  | reservedOp0 (payload : BitVec 28)
  /-- A reserved request with `OP` = 0xA or 0xB (R62): `low` is bit 0 of `OP`. -/
  | reservedOpAB (low : BitVec 1) (payload : BitVec 28)
  /-- A reserved request with `OP` in 0xC to 0xF (R62): `low` is bits 1 to 0 of `OP`. -/
  | reservedOpCF (low : BitVec 2) (payload : BitVec 28)
  /-- SEND_BITS v, n (R80): the internal micro-operation of the frame encoder. -/
  | sendBits (v : Byte) (n : Nat)
  /-- W-CMD (R66): a command frame with code `c` and padding bit `p`. -/
  | wCmd (c : Byte) (p : Bool)
  /-- W-WR (R67): a data frame with mode tag `m`, wire address `a` and value `d`. -/
  | wWr (m : Tag) (a : BitVec 6) (d : Byte)
  /-- The command frame of `CMD_SYS_EN` with padding bit `p` (R69, R96). -/
  | cmdSysEn (p : Bool)
  /-- The command frame of `CMD_OSC` with padding bit `p` (R69, R96). -/
  | cmdOsc (p : Bool)
  /-- The command frame of `CMD_BIAS` with padding bit `p` (R69, R96). -/
  | cmdBias (p : Bool)
  /-- The command frame of `CMD_LCD_ON` with padding bit `p` (R69, R112). -/
  | cmdLcdOn (p : Bool)
  /-- The command frame of `CMD_LCD_OFF` with padding bit `p` (R69, R113). -/
  | cmdLcdOff (p : Bool)
  deriving DecidableEq, Repr

/-- Whether a host request word can carry the operation (R61, R62, R73). -/
def Instr.onHostSurface : Instr → Bool
  | .init => true
  | .setRow _ _ => true
  | .setChar _ _ _ => true
  | .setString _ _ => true
  | .flush => true
  | .setOn => true
  | .setOff => true
  | .sendCommand _ => true
  | .sendData _ _ _ => true
  | .reservedOp0 _ => true
  | .reservedOpAB _ _ => true
  | .reservedOpCF _ _ => true
  | .sendBits _ _ => false
  | .wCmd _ _ => false
  | .wWr _ _ _ => false
  | .cmdSysEn _ => false
  | .cmdOsc _ => false
  | .cmdBias _ => false
  | .cmdLcdOn _ => false
  | .cmdLcdOff _ => false

end Sys2Proof
end

