-- ==== Sys2Proof/WellFormed.lean ====
section
/-! DEFINITION. When an operation's operands fit the fields that carry them (spec/30_encoding.md rules R60,
R64; spec/40_bit_transmitter.md rule R80). -/

namespace Sys2Proof

/-- A row or position fits the 8-bit unsigned field `A` (R64). -/
def fitsA (x : Int) : Bool := decide (0 ≤ x) && decide (x ≤ 255)

/-- Every operand is one its field can carry. The semantic rules give an operation with a row below 0 or above
255, or an address above 255, its meaning all the same (R12, R92), and the machine runs it. -/
def Instr.wellFormed : Instr → Bool
  | .init => true
  | .setRow row _ => fitsA row
  | .setChar position _ _ => fitsA position
  | .setString startPosition _ => fitsA startPosition
  | .flush => true
  | .setOn => true
  | .setOff => true
  | .sendCommand _ => true
  | .sendData address _ _ => decide (address ≤ 255)
  | .reservedOp0 _ => true
  | .reservedOpAB _ _ => true
  | .reservedOpCF _ _ => true
  | .sendBits _ n => decide (n ≤ 8)
  | .wCmd _ _ => true
  | .wWr _ _ _ => true
  | .cmdSysEn _ => true
  | .cmdOsc _ => true
  | .cmdBias _ => true
  | .cmdLcdOn _ => true
  | .cmdLcdOff _ => true

end Sys2Proof
end

