-- ==== Sys2Proof/Decode.lean ====
section
/-! DEFINITION. The encodings of spec/30_encoding.md: the host request word (format H) decoded and encoded,
the two wire frame formats both ways, and the assembler's default operands. -/

namespace Sys2Proof

/-! ## Fields of a host request word (R60) -/

/-- `OP`, bits 3 to 0. -/
def opField (w : Word) : BitVec 4 := w.extractLsb' 0 4

/-- `F`, bit 4. -/
def flagField (w : Word) : Bool := w.getLsbD 4

/-- `M`, bits 7 to 5. -/
def modeField (w : Word) : Tag := w.extractLsb' 5 3

/-- `A`, bits 15 to 8. -/
def aField (w : Word) : Byte := w.extractLsb' 8 8

/-- `B`, bits 23 to 16. -/
def bField (w : Word) : Byte := w.extractLsb' 16 8

/-- Everything above `OP`, bits 31 to 4. -/
def payloadField (w : Word) : BitVec 28 := w.extractLsb' 4 28

/-- A row or position is `zext(A)`, an integer 0 to 255 (R64). -/
def rowOperand (w : Word) : Int := ((aField w).toNat : Int)

/-- An address is `A`, 8 bits unsigned (R64). -/
def addressOperand (w : Word) : Nat := (aField w).toNat

/-! ## Decoding -/

/-- Why a word is refused by the decoder rather than read as a table row: a bit outside the fields of its
operation is set (R63). `op` is the word's `OP`, a defined one. -/
inductive DecodeError where
  | reservedBits (op : BitVec 4)
  deriving DecidableEq, Repr

/-- `w` fits a table row with this mask and match (R63). -/
def fits (w mask pattern : Word) : Bool := w &&& mask == pattern

/-- A row of the mask and match table: the words of an operation, and how its operands are read from one. -/
structure HostRow where
  mask : Word
  pattern : Word
  read : Word → Instr

/-- The table of R63, in its order, then the reserved rows of R62 as spec/opcode_table.json has them. -/
def hostRows : List HostRow :=
  [ ⟨0xFFFFFFFF#32, 0x00000001#32, fun _ => .init⟩,
    ⟨0xFF0000FF#32, 0x00000002#32, fun w => .setRow (rowOperand w) (bField w)⟩,
    ⟨0xFF0000EF#32, 0x00000003#32, fun w => .setChar (rowOperand w) (bField w) (flagField w)⟩,
    ⟨0xFFFF00EF#32, 0x00000004#32, fun w => .setString (rowOperand w) (flagField w)⟩,
    ⟨0xFFFFFFFF#32, 0x00000005#32, fun _ => .flush⟩,
    ⟨0xFFFFFFFF#32, 0x00000006#32, fun _ => .setOn⟩,
    ⟨0xFFFFFFFF#32, 0x00000007#32, fun _ => .setOff⟩,
    ⟨0xFFFF00FF#32, 0x00000008#32, fun w => .sendCommand (aField w)⟩,
    ⟨0xFF00001F#32, 0x00000009#32, fun w => .sendData (addressOperand w) (bField w) (modeField w)⟩,
    ⟨0x0000000F#32, 0x00000000#32, fun w => .reservedOp0 (payloadField w)⟩,
    ⟨0x0000000E#32, 0x0000000A#32, fun w => .reservedOpAB (w.extractLsb' 0 1) (payloadField w)⟩,
    ⟨0x0000000C#32, 0x0000000C#32, fun w => .reservedOpCF (w.extractLsb' 0 2) (payloadField w)⟩ ]

/-- The operation a host word stands for: that of the row it fits. A word that fits no row has a defined `OP` and a
reserved bit set (R63). -/
def decode (w : Word) : Except DecodeError Instr :=
  match hostRows.find? fun row => fits w row.mask row.pattern with
  | some row => .ok (row.read w)
  | none => .error (.reservedBits (opField w))

/-! ## Encoding -/

/-- A word of format H: `OP | F<<4 | M<<5 | A<<8 | B<<16` (R60). -/
def formH (op : BitVec 4) (f : Bool) (m : Tag) (a b : Byte) : Word :=
  op.setWidth 32 ||| (BitVec.ofBool f).setWidth 32 <<< 4 ||| m.setWidth 32 <<< 5 |||
    a.setWidth 32 <<< 8 ||| b.setWidth 32 <<< 16

/-- A reserved word: its `OP`, and the rest of the word as it is (R62). -/
def reservedWord (op : BitVec 4) (payload : BitVec 28) : Word :=
  op.setWidth 32 ||| payload.setWidth 32 <<< 4

/-- The host word of an operation (R61, R63, R64); none for an operation with no host encoding (R73). An operand
that is not well formed loses the bits its field has no room for. -/
def encode : Instr → Option Word
  | .init => some (formH 0x1#4 false 0#3 0#8 0#8)
  | .setRow row data => some (formH 0x2#4 false 0#3 (BitVec.ofInt 8 row) data)
  | .setChar position character decimalPoint =>
    some (formH 0x3#4 decimalPoint 0#3 (BitVec.ofInt 8 position) character)
  | .setString startPosition numericMode =>
    some (formH 0x4#4 numericMode 0#3 (BitVec.ofInt 8 startPosition) 0#8)
  | .flush => some (formH 0x5#4 false 0#3 0#8 0#8)
  | .setOn => some (formH 0x6#4 false 0#3 0#8 0#8)
  | .setOff => some (formH 0x7#4 false 0#3 0#8 0#8)
  | .sendCommand cmd => some (formH 0x8#4 false 0#3 cmd 0#8)
  | .sendData address value mode => some (formH 0x9#4 false mode (BitVec.ofNat 8 address) value)
  | .reservedOp0 payload => some (reservedWord 0x0#4 payload)
  | .reservedOpAB low payload => some (reservedWord (0b101#3 ++ low) payload)
  | .reservedOpCF low payload => some (reservedWord (0b11#2 ++ low) payload)
  | .sendBits _ _ => none
  | .wCmd _ _ => none
  | .wWr _ _ _ => none
  | .cmdSysEn _ => none
  | .cmdOsc _ => none
  | .cmdBias _ => none
  | .cmdLcdOn _ => none
  | .cmdLcdOff _ => none

/-! ## Words numbered as the opcode table numbers them -/

/-- The host word whose low `nbits` bits are `w` and whose other bits are 0. The block has no byte order (R42):
the word is one 32-bit unit. -/
def tableWord (nbits w : Nat) : Word := BitVec.ofNat 32 (w % 2 ^ nbits)

/-- The instruction the decoder reads from a word given in the opcode table's numbering; none where a reserved
bit is set. A number that does not fit a host word is none. -/
def decodeTableWord (nbits w : Nat) : Option Instr :=
  if w % 2 ^ nbits < 2 ^ 32 then
    match decode (tableWord nbits w) with
    | .ok i => some i
    | .error _ => none
  else none

/-! ## Wire frames (R66, R67) -/

/-- `bin_k(v)` of R9: the `k`-bit binary string of `v mod 2^k`, most significant bit first. -/
def binBits (k v : Nat) : List Bool := (List.range k).map fun i => v.testBit (k - 1 - i)

/-- Format W-CMD (R66): the command tag, the code, the padding bit, first-sent bit first. With the values of R6 it is
the 12 bits `100`, code, padding. -/
def commandBits (cfg : Config) (c : Byte) (p : Bool) : List Bool :=
  binBits cfg.tagBits cfg.cmdTag.toNat ++ binBits cfg.cmdBits c.toNat ++ binBits cfg.padBits p.toNat

/-- Format W-WR (R67): mode, address, value, first-sent bit first. With the values of R6 it is the 17 bits mode,
`address mod 64`, value. -/
def dataFrameBits (cfg : Config) (m : Tag) (address : Nat) (d : Byte) : List Bool :=
  binBits cfg.tagBits m.toNat ++ binBits cfg.addrBits address ++ binBits cfg.dataBits d.toNat

/-- The wire frame of a frame row of the table, for a configuration that gives the named codes (R66, R67,
R69); none for the operations that are no frame. -/
def encodeWire (cfg : Config) : Instr → Option (List Bool)
  | .wCmd c p => some (commandBits cfg c p)
  | .wWr m a d => some (dataFrameBits cfg m a.toNat d)
  | .cmdSysEn p => some (commandBits cfg cfg.cmdSysEn p)
  | .cmdOsc p => some (commandBits cfg cfg.cmdOsc p)
  | .cmdBias p => some (commandBits cfg cfg.cmdBias p)
  | .cmdLcdOn p => some (commandBits cfg cfg.cmdLcdOn p)
  | .cmdLcdOff p => some (commandBits cfg cfg.cmdLcdOff p)
  | .init => none
  | .setRow _ _ => none
  | .setChar _ _ _ => none
  | .setString _ _ => none
  | .flush => none
  | .setOn => none
  | .setOff => none
  | .sendCommand _ => none
  | .sendData _ _ _ => none
  | .reservedOp0 _ => none
  | .reservedOpAB _ _ => none
  | .reservedOpCF _ _ => none
  | .sendBits _ _ => none

/-- The number a bit string stands for, most significant bit first. -/
def bitsToNat (bits : List Bool) : Nat := bits.foldl (fun n b => 2 * n + b.toNat) 0

/-- The frame a receiver reads from the bits between a fall and a rise of `CS` (R68): a string of a command frame's
length that begins with `CMD_TAG` is a command frame, one of a data frame's length is a data frame, anything else is no
frame of this block. With the values of R6 the lengths are 12 and 17. -/
def decodeWire (cfg : Config) (bits : List Bool) : Option Instr :=
  if bits.length = cfg.tagBits + cfg.cmdBits + cfg.padBits then
    if bits.take cfg.tagBits = binBits cfg.tagBits cfg.cmdTag.toNat then
      some (.wCmd (BitVec.ofNat 8 (bitsToNat ((bits.drop cfg.tagBits).take cfg.cmdBits))) (bits.getLastD false))
    else none
  else if bits.length = cfg.tagBits + cfg.addrBits + cfg.dataBits then
    some (.wWr (BitVec.ofNat 3 (bitsToNat (bits.take cfg.tagBits)))
      (BitVec.ofNat 6 (bitsToNat ((bits.drop cfg.tagBits).take cfg.addrBits)))
      (BitVec.ofNat 8 (bitsToNat (bits.drop (cfg.tagBits + cfg.addrBits)))))
  else none

/-- The named command a command frame carries (R69), the first of the table's five rows whose code it is; none
for a frame that carries another code or is no command frame. -/
def decodeNamedCommand (cfg : Config) (bits : List Bool) : Option Instr :=
  match decodeWire cfg bits with
  | some (.wCmd c p) =>
    if c = cfg.cmdSysEn then some (.cmdSysEn p)
    else if c = cfg.cmdOsc then some (.cmdOsc p)
    else if c = cfg.cmdBias then some (.cmdBias p)
    else if c = cfg.cmdLcdOn then some (.cmdLcdOn p)
    else if c = cfg.cmdLcdOff then some (.cmdLcdOff p)
    else none
  | _ => none

/-! ## Assembler forms (R71): an omitted `dp` or `num` is 0, an omitted `mode` is `WRITE_TAG` (R94) -/

/-- `SET_CHAR pos, ch [, dp]`. -/
def asmSetChar (pos : Int) (ch : Byte) (dp : Option Bool) : Instr := .setChar pos ch (dp.getD false)

/-- `SET_STRING start, "text" [, num]`, the text going to the text port. -/
def asmSetString (start : Int) (num : Option Bool) : Instr := .setString start (num.getD false)

/-- `SEND_DATA addr, value [, mode]`. -/
def asmSendData (cfg : Config) (addr : Nat) (value : Byte) (mode : Option Tag) : Instr :=
  .sendData addr value (mode.getD cfg.writeTag)

end Sys2Proof
end

