-- ==== Sys2Proof/Machine/Operands.lean ====
section
/-! DEFINITION. The operand forms: the text port (spec/30_encoding.md rule R65), the character map lookup
(spec/43_char_translator.md rules R130, R131), the bytes SEND_BITS is given (spec/40_bit_transmitter.md rule R87)
and the positions of SET_STRING (spec/44_string_layout.md rule R140). -/

namespace Sys2Proof.Machine

/-- `T(j)` (R65): byte `j` of the text, `TERMINATOR` at and beyond its end. -/
def textAt (cfg : Config) (text : List Byte) (j : Nat) : Byte := text.getD j cfg.terminator

/-- `idx(c)` (R130). -/
def mapIndex (cfg : Config) (c : Byte) : Nat := if c.toNat < cfg.mapSize then c.toNat else cfg.blankIndex

/-- `MemRead(CHARMAP, i, 1)` (R11). No access leaves the map (R44); a configuration that is not legal reads 0x00
where it has no entry (log entry 18). -/
def readMap (cfg : Config) (i : Nat) : Byte := cfg.charMap.getD i 0x00#8

/-- `glyph(c, dp)` (R131). -/
def glyph (cfg : Config) (c : Byte) (dp : Bool) : Byte :=
  if dp then readMap cfg (mapIndex cfg c) ||| cfg.dpMask else readMap cfg (mapIndex cfg c)

/-- The `n` most significant bits of `v`, the first-sent first: `v[7], ..., v[8-n]` (R80). -/
def topBits (v : Byte) (n : Nat) : List Bool := (List.range n).map fun k => v.getLsbD (7 - k)

/-- A field of `k` bits as the byte SEND_BITS is given: the field in the top `k` bits, `(x << (8 - k)) mod 256`. With the
values of R6 these are the operands of R87: `tag << 5`, `cmd`, `PAD_BIT << 7`, `address << 2` (R93), `value`. -/
def fieldByte (k x : Nat) : Byte := BitVec.ofNat 8 (x <<< (8 - k))

/-- Slot `k` is row `LAST_POS - k` (R140). -/
def slotPosition (cfg : Config) (slot : Nat) : Int := (cfg.lastPos : Int) - (slot : Int)

end Sys2Proof.Machine
end

