-- ==== Sys2Proof/Machine/Ops.lean ====
section
/-! DEFINITION. The named operations the meanings are made of: the pin primitives, the row accessors, SEND_BITS and
the two frames (spec/00_scope.md rule R11, spec/40_bit_transmitter.md, spec/41_frame_encoder.md), and taking the
next request from the host. -/

namespace Sys2Proof.Machine

/-! ## The lines and the trace -/

/-- The latch of a line holds the level (R27). -/
def setLatch (l : Line) (b : Bool) (s : State) : State :=
  match l with
  | .cs => { s with lineCs := b }
  | .wr => { s with lineWr := b }
  | .data => { s with lineData := b }

/-- One event more on the trace (R28). -/
def record (e : Event) (s : State) : State := { s with trace := s.trace ++ [e] }

/-- `Pin(L, b)` (R11, R27, R28, R168): every call is recorded, one that leaves a level as it is too. -/
def pin (l : Line) (b : Bool) (s : State) : State := record (.pin l b) (setLatch l b (ghostPin s))

/-- `PinSetup()` (R98, R168). Afterwards `LINE_CS` is 1 (D24, log entry 5) and the levels of `WR` and `DATA` are
unspecified (R31): each is a free value. -/
def pinSetup (s : State) : State :=
  record .pinSetup
    { s with
      pinsReady := true
      lineCs := true
      lineWr := Config.freeLevel s.draws
      lineData := Config.freeLevel (s.draws + 1)
      draws := s.draws + 2 }

/-! ## The row buffer -/

/-- `ROW[r]` (R11). A row that does not exist reads 0x00; FLUSH reads none (R44, log entry 17). -/
def readRow (r : Nat) (s : State) : Byte := s.rows.getD r 0x00#8

/-- `SetRow(row, data)` (R110): a row outside `[0, N_ROWS)` is a silent no-op. -/
def setRow (row : Int) (data : Byte) (s : State) : State :=
  if 0 ≤ row ∧ row < (s.cfg.nRows : Int) then { s with rows := s.rows.set row.toNat data } else s

/-! ## SEND_BITS and the frames -/

/-- One bit on the wire (R81): `WR` low, `DATA` to the bit, `WR` high. -/
def clockBit (s : State) (b : Bool) : State := pin .wr true (pin .data b (pin .wr false s))

/-- `SendBits(v, n)` (R80); an `n` above 8 is refused (R83). -/
def sendBits (v : Byte) (n : Nat) (s : State) : State :=
  if n ≤ 8 then (topBits v n).foldl clockBit s else refuse s

/-- One field of a frame: SEND_BITS of its `k` bits (R87). -/
def sendField (k x : Nat) (s : State) : State := sendBits (fieldByte k x) k s

/-- A command frame with code `c` and padding bit `p` (R90, R91), the ghost update at its end (R168). -/
def commandFrame (c : Byte) (p : Bool) (s : State) : State :=
  let cfg := s.cfg
  let s := pin .cs false s
  let s := sendField cfg.tagBits cfg.cmdTag.toNat s
  let s := sendField cfg.cmdBits c.toNat s
  let s := sendField cfg.padBits p.toNat s
  let s := pin .cs true s
  ghostCommand c s

/-- `SendCommand(cmd)` (R91): the padding bit is `PAD_BIT`. -/
def sendCommand (cmd : Byte) (s : State) : State := commandFrame cmd s.cfg.padBit s

/-- `SendData(address, value, mode)` (R92, R93). -/
def sendData (address : Nat) (value : Byte) (mode : Tag) (s : State) : State :=
  let cfg := s.cfg
  let s := pin .cs false s
  let s := sendField cfg.tagBits mode.toNat s
  let s := sendField cfg.addrBits address s
  let s := sendField cfg.dataBits value.toNat s
  pin .cs true s

/-! ## The host -/

/-- The next host request: its word, and the state with the request taken and its text on the text port (R65).
None where no request is pending. -/
def fetch (s : State) : Option (Word × State) :=
  match s.pending with
  | [] => none
  | r :: rest => some (r.word, { s with pending := rest, textPort := r.text })

/-- Requests the host adds behind those already pending. -/
def load (requests : List Request) (s : State) : State := { s with pending := s.pending ++ requests }

/-- A request put in front of all others: the next one served. -/
def loadNext (r : Request) (s : State) : State := { s with pending := r :: s.pending }

end Sys2Proof.Machine
end

