-- ==== Sys2Proof/Machine/BitTransmitter.lean ====
section
/-! DEFINITION. The Bit Transmitter (spec/40_bit_transmitter.md): SEND_BITS. -/

namespace Sys2Proof.Machine

/-- SEND_BITS v, n (R80 to R83). No host request carries it (R73); the Frame Encoder runs it with `CS` low
(R84; log entry 10 says what the model does otherwise). -/
def execSendBits (v : Byte) (n : Nat) (s : State) : Host.Outcome State Fault Refusal := .next (sendBits v n s)

end Sys2Proof.Machine
end

