-- ==== Sys2Proof/Machine/CharTranslator.lean ====
section
/-! DEFINITION. The Character Translator (spec/43_char_translator.md): SET_CHAR. -/

namespace Sys2Proof.Machine

/-- `SetChar(pos, c, dp)` (R132): the glyph is written through SET_ROW; the row's old value plays no part (R131). -/
def setChar (position : Int) (c : Byte) (dp : Bool) (s : State) : State := setRow position (glyph s.cfg c dp) s

/-- SET_CHAR position, character, decimalPoint (R132). -/
def execSetChar (position : Int) (character : Byte) (decimalPoint : Bool) (s : State) :
    Host.Outcome State Fault Refusal :=
  .next (setChar position character decimalPoint s)

end Sys2Proof.Machine
end

