-- ==== Sys2Proof/Machine/FrameEncoder.lean ====
section
/-! DEFINITION. The Frame Encoder (spec/41_frame_encoder.md): SEND_COMMAND, SEND_DATA, INIT, and the frames of the
opcode table's wire rows (spec/30_encoding.md rules R66, R67, R69). -/

namespace Sys2Proof.Machine

/-- SEND_COMMAND cmd (R91): every code is sent, whether or not it names a real command. -/
def execSendCommand (cmd : Byte) (s : State) : Host.Outcome State Fault Refusal := .next (sendCommand cmd s)

/-- SEND_DATA address, value, mode (R92 to R95): no bounds check, every mode is sent as given. -/
def execSendData (address : Nat) (value : Byte) (mode : Tag) (s : State) : Host.Outcome State Fault Refusal :=
  .next (sendData address value mode s)

/-- INIT (R96, R97): pin setup, then system enable, oscillator select, bias select and display on. -/
def execInit (s : State) : Host.Outcome State Fault Refusal :=
  let cfg := s.cfg
  let s := pinSetup s
  let s := sendCommand cfg.cmdSysEn s
  let s := sendCommand cfg.cmdOsc s
  let s := sendCommand cfg.cmdBias s
  .next (sendCommand cfg.cmdLcdOn s)

/-- W-CMD (R66): the frame `100 c p`, as SEND_COMMAND emits it with `p = PAD_BIT`. -/
def execWCmd (c : Byte) (p : Bool) (s : State) : Host.Outcome State Fault Refusal := .next (commandFrame c p s)

/-- W-WR (R67): the frame `m a d`. -/
def execWWr (m : Tag) (a : BitVec 6) (d : Byte) (s : State) : Host.Outcome State Fault Refusal :=
  .next (sendData a.toNat d m s)

/-- The system-enable frame (R69, R96). -/
def execCmdSysEn (p : Bool) (s : State) : Host.Outcome State Fault Refusal :=
  .next (commandFrame s.cfg.cmdSysEn p s)

/-- The oscillator-select frame (R69, R96). -/
def execCmdOsc (p : Bool) (s : State) : Host.Outcome State Fault Refusal := .next (commandFrame s.cfg.cmdOsc p s)

/-- The bias-select frame (R69, R96). -/
def execCmdBias (p : Bool) (s : State) : Host.Outcome State Fault Refusal := .next (commandFrame s.cfg.cmdBias p s)

/-- The display-on frame (R69, R112). -/
def execCmdLcdOn (p : Bool) (s : State) : Host.Outcome State Fault Refusal :=
  .next (commandFrame s.cfg.cmdLcdOn p s)

/-- The display-off frame (R69, R113). -/
def execCmdLcdOff (p : Bool) (s : State) : Host.Outcome State Fault Refusal :=
  .next (commandFrame s.cfg.cmdLcdOff p s)

end Sys2Proof.Machine
end

