-- ==== Sys2Proof/Machine/Reserved.lean ====
section
/-! DEFINITION. The reserved requests (spec/30_encoding.md rules R62, R63; spec/60_exceptions.md rule R162): each is
refused, which sets `REFUSED` and changes nothing else. -/

namespace Sys2Proof.Machine

/-- `OP` = 0x0 (R62). -/
def execReservedOp0 (_payload : BitVec 28) (s : State) : Host.Outcome State Fault Refusal := .next (refuse s)

/-- `OP` = 0xA or 0xB (R62). -/
def execReservedOpAB (_low : BitVec 1) (_payload : BitVec 28) (s : State) : Host.Outcome State Fault Refusal :=
  .next (refuse s)

/-- `OP` in 0xC to 0xF (R62). -/
def execReservedOpCF (_low : BitVec 2) (_payload : BitVec 28) (s : State) : Host.Outcome State Fault Refusal :=
  .next (refuse s)

/-- A word the decoder refuses, a reserved bit being set (R63): refused like a reserved `OP`. -/
def rejectWord (_why : DecodeError) (s : State) : Host.Outcome State Fault Refusal := .next (refuse s)

end Sys2Proof.Machine
end

