-- ==== Sys2Proof/Machine/RowBuffer.lean ====
section
/-! DEFINITION. The Row Buffer (spec/42_row_buffer.md): SET_ROW, FLUSH, SET_ON, SET_OFF. -/

namespace Sys2Proof.Machine

/-- SET_ROW row, data (R110). -/
def execSetRow (row : Int) (data : Byte) (s : State) : Host.Outcome State Fault Refusal := .next (setRow row data s)

/-- One row of FLUSH: row `r` goes to chip address `2r` (R48, R111). -/
def flushRow (s : State) (r : Nat) : State := sendData (2 * r) (readRow r s) s.cfg.writeTag s

/-- FLUSH (R111): every row, ascending. -/
def execFlush (s : State) : Host.Outcome State Fault Refusal := .next ((List.range s.cfg.nRows).foldl flushRow s)

/-- SET_ON (R112). -/
def execSetOn (s : State) : Host.Outcome State Fault Refusal := .next (sendCommand s.cfg.cmdLcdOn s)

/-- SET_OFF (R113). -/
def execSetOff (s : State) : Host.Outcome State Fault Refusal := .next (sendCommand s.cfg.cmdLcdOff s)

end Sys2Proof.Machine
end

