-- ==== Sys2Proof/Machine/StringLayout.lean ====
section
/-! DEFINITION. The String Layout Engine (spec/44_string_layout.md): SET_STRING. -/

namespace Sys2Proof.Machine

/-- The loop of SET_STRING (R141) in the configuration `cfg`, from slot counter `slot` and text index `j`. `fuel` bounds the iterations;
`len + 1` of them are enough for a text of `len` bytes (R151, log entry 15). -/
def layout (cfg : Config) (text : List Byte) (numeric : Bool) : Nat → Nat → Nat → State → State
  | 0, _, _, s => s
  | fuel + 1, slot, j, s =>
    if slot < cfg.slots then
      let c := textAt cfg text j
      if numeric && c == cfg.dpChar then
        if slot == 0 then
          layout cfg text numeric fuel (slot + 1) (j + 1) (setChar (slotPosition cfg slot) cfg.zeroChar true s)
        else
          let back := max (slot - 1) 0
          layout cfg text numeric fuel (back + 1) (j + 1)
            (setChar (slotPosition cfg back) (textAt cfg text (j - 1)) true s)
      else if c == cfg.terminator then s
      else layout cfg text numeric fuel (slot + 1) (j + 1) (setChar (slotPosition cfg slot) c false s)
    else s

/-- SET_STRING startPosition, numericMode, with the text on the text port (R141). The start position is accepted and
has no effect (R149). -/
def execSetString (_startPosition : Int) (numericMode : Bool) (s : State) : Host.Outcome State Fault Refusal :=
  .next (layout s.cfg s.textPort numericMode (s.textPort.length + 1) 0 0 s)

end Sys2Proof.Machine
end

