-- ==== Sys2Proof/Machine/Dispatch.lean ====
section
/-! DEFINITION. The dispatch: one arm per constructor of Instr. -/

namespace Sys2Proof.Machine

def exec (i : Instr) (s : State) : Host.Outcome State Fault Refusal :=
  match i with
  | .init => Sys2Proof.Machine.execInit s
  | .setRow row data => Sys2Proof.Machine.execSetRow row data s
  | .setChar position character decimalPoint => Sys2Proof.Machine.execSetChar position character decimalPoint s
  | .setString startPosition numericMode => Sys2Proof.Machine.execSetString startPosition numericMode s
  | .flush => Sys2Proof.Machine.execFlush s
  | .setOn => Sys2Proof.Machine.execSetOn s
  | .setOff => Sys2Proof.Machine.execSetOff s
  | .sendCommand cmd => Sys2Proof.Machine.execSendCommand cmd s
  | .sendData address value mode => Sys2Proof.Machine.execSendData address value mode s
  | .reservedOp0 payload => Sys2Proof.Machine.execReservedOp0 payload s
  | .reservedOpAB low payload => Sys2Proof.Machine.execReservedOpAB low payload s
  | .reservedOpCF low payload => Sys2Proof.Machine.execReservedOpCF low payload s
  | .sendBits v n => Sys2Proof.Machine.execSendBits v n s
  | .wCmd c p => Sys2Proof.Machine.execWCmd c p s
  | .wWr m a d => Sys2Proof.Machine.execWWr m a d s
  | .cmdSysEn p => Sys2Proof.Machine.execCmdSysEn p s
  | .cmdOsc p => Sys2Proof.Machine.execCmdOsc p s
  | .cmdBias p => Sys2Proof.Machine.execCmdBias p s
  | .cmdLcdOn p => Sys2Proof.Machine.execCmdLcdOn p s
  | .cmdLcdOff p => Sys2Proof.Machine.execCmdLcdOff p s

end Sys2Proof.Machine
end

