-- ==== Sys2Proof/Machine/Step.lean ====
section
/-! DEFINITION. One step: the block serves the next host request (spec/00_scope.md rule R13, spec/70_reset_and_hazards.md
rules R180, R189). -/

namespace Sys2Proof.Machine

/-- One step. The next request's word is decoded and its operation run with its text on the text port; a word the
decoder refuses is rejected by name. With no request pending the block waits (R180): nothing changes. -/
def step (s : State) : Host.Outcome State Fault Refusal :=
  match fetch s with
  | none => .next s
  | some (w, s') =>
    match decode w with
    | .ok i => exec i s'
    | .error why => rejectWord why s'

/-- `s` with the table's word placed where the step takes its next request: in front of all pending ones. The text
port keeps its contents for the request (log entry 6). -/
def State.withFetchWord (s : State) (nbits w : Nat) : State :=
  loadNext { word := tableWord nbits w, text := s.textPort } s

end Sys2Proof.Machine
end

