-- ==== Sys2Proof/Machine/Wire.lean ====
section
/-! DEFINITION. The wire as an observer sees it: the events of a frame (spec/40_bit_transmitter.md rule R81,
spec/41_frame_encoder.md rule R90) and the receiver's view of an event list (R85, R68). -/

namespace Sys2Proof.Machine

/-- The three events of one bit (R81). -/
def bitEvents (b : Bool) : List Event := [.pin .wr false, .pin .data b, .pin .wr true]

/-- The events of a bit sequence. -/
def bodyEvents (bits : List Bool) : List Event := bits.flatMap bitEvents

/-- The events of a frame (R90): `(CS,0)`, the body, `(CS,1)`. -/
def frameEvents (bits : List Bool) : List Event :=
  [.pin .cs false] ++ bodyEvents bits ++ [.pin .cs true]

/-- `Received(E)` (R85), from the levels `cs` and `data` the lines have before `E`: the level of `DATA` at every
`(WR, 1)` while `CS` is low. `PINSETUP` makes `CS` high (D24). DESIGN CHOICE: it leaves the level of `DATA` in this view
as it was, where the spec leaves `LINE_DATA` unspecified (R31, I18); no list the block emits can show it, because every
`(WR, 1)` follows a `(DATA, b)` of its own bit (log entry 14). -/
def received (cs data : Bool) : List Event → List Bool
  | [] => []
  | .pin .cs b :: es => received b data es
  | .pin .data b :: es => received cs b es
  | .pin .wr b :: es => if b && !cs then data :: received cs data es else received cs data es
  | .pinSetup :: es => received true data es

/-- The frames a receiver sees (R68): the bits received between a fall of `CS` and its next rise, one list a frame.
`acc` holds the bits of the frame that is open, none between frames; `data` is the level of `DATA`.
DESIGN CHOICE: `PINSETUP` drops an open frame and leaves `data` as it was, where the spec leaves `LINE_DATA` unspecified
(R31, I18; log entry 14). -/
def receivedFrames (acc : Option (List Bool)) (data : Bool) : List Event → List (List Bool)
  | [] => []
  | .pin .cs true :: es => acc.toList ++ receivedFrames none data es
  | .pin .cs false :: es => receivedFrames (some (acc.getD [])) data es
  | .pin .data b :: es => receivedFrames acc b es
  | .pin .wr true :: es => receivedFrames (acc.map (· ++ [data])) data es
  | .pin .wr false :: es => receivedFrames acc data es
  | .pinSetup :: es => receivedFrames none data es

end Sys2Proof.Machine
end

