-- ==== Sys2Proof/Safety.lean ====
section
/-! DEFINITION. The terms the statements use: the premises of a claim about a run (spec/70_reset_and_hazards.md rule
R189), the reference forms of a frame's effect and of the string layout, the history of the wire, and what an
invariant of the model says. No meaning of the machine uses any of them. -/

namespace Sys2Proof

open Sys2Proof.Machine

/-! ## Premises -/

/-- No request was refused: the premise of every claim about a run (R162, R189). -/
abbrev NotRefused (s : State) : Prop := s.refused = false

/-- No hazard was recorded: the further premise of a claim about what the chip receives (R168, R189). -/
abbrev NoHazard (s : State) : Prop := s.haz = HazardSet.empty

/-- The row buffer has `N_ROWS` rows (R21). -/
abbrev RowsWf (s : State) : Prop := s.rows.length = s.cfg.nRows

/-- The pins are set up and the chip's oscillator and bias have been selected: no mark can be added (R168). -/
abbrev BroughtUp (s : State) : Prop := s.pinsReady = true ∧ s.oscSent = true ∧ s.biasSent = true

/-- Operations one after another. -/
def execAll : List Instr → State → Host.Outcome State Fault Refusal
  | [], s => .next s
  | i :: rest, s =>
    match exec i s with
    | .next t => execAll rest t
    | .fault r => .fault r
    | .refused r => .refused r

/-! ## The effect of one frame, in one expression -/

/-- `HAZ` after at least one pin event (R168). -/
def hazAfterPins (s : State) : HazardSet :=
  { s.haz with preInitTransmit := s.haz.preInitTransmit || !s.pinsReady }

/-- A state after a command frame with code `c` and padding bit `p`: the events of R91, the lines of R101, the ghost
state of R168, and everything else as it was. -/
def afterCommandFrame (c : Byte) (p : Bool) (s : State) : State :=
  { s with
    trace := s.trace ++ frameEvents (commandBits s.cfg c p)
    lineCs := true
    lineWr := true
    lineData := p
    oscSent := s.oscSent || c == s.cfg.cmdOsc
    biasSent := s.biasSent || c == s.cfg.cmdBias
    haz :=
      { preInitTransmit := s.haz.preInitTransmit || !s.pinsReady
        onBeforeConfig := s.haz.onBeforeConfig || (c == s.cfg.cmdLcdOn && !(s.oscSent && s.biasSent)) } }

/-- A state after a data frame: the events of R92, the lines of R101, the mark of R168, and everything else as it
was. -/
def afterDataFrame (m : Tag) (address : Nat) (d : Byte) (s : State) : State :=
  { s with
    trace := s.trace ++ frameEvents (dataFrameBits s.cfg m address d)
    lineCs := true
    lineWr := true
    lineData := d.getLsbD 0
    haz := hazAfterPins s }

/-! ## The string layout as a list of digits -/

/-- The characters SET_STRING has placed, slot 0 first, each with its decimal-point flag: a reference form of the loop
of R141. `placed` are the ones so far, `prev` is the text byte before `text` (R144 re-fetches it). A '.' in numeric
mode replaces the last one (R143), or is a leading zero where there is none (R142); the terminator ends the text
(R145); nothing is read once `SLOTS` are placed (R147). -/
def placeText (cfg : Config) (numeric : Bool) : List (Byte × Bool) → Byte → List Byte → List (Byte × Bool)
  | placed, _, [] => placed
  | placed, prev, c :: text =>
    if placed.length = cfg.slots then placed
    else if numeric = true ∧ c = cfg.dpChar then
      if placed = [] then placeText cfg numeric [(cfg.zeroChar, true)] c text
      else placeText cfg numeric (placed.dropLast ++ [(prev, true)]) c text
    else if c = cfg.terminator then placed
    else placeText cfg numeric (placed ++ [(c, false)]) c text

/-- The characters a whole text places. -/
def placedChars (cfg : Config) (numeric : Bool) (text : List Byte) : List (Byte × Bool) :=
  placeText cfg numeric [] cfg.terminator text

/-! ## The history of the wire -/

/-- One thing the block has done on its lines: the pin setup, a command frame or a data frame. -/
inductive WireItem where
  | setup
  | command (c : Byte) (p : Bool)
  | data (m : Tag) (a : BitVec 6) (d : Byte)
  deriving DecidableEq, Repr

/-- The trace events of an item (R28, R66, R67, R90). -/
def WireItem.events (cfg : Config) : WireItem → List Event
  | .setup => [.pinSetup]
  | .command c p => frameEvents (commandBits cfg c p)
  | .data m a d => frameEvents (dataFrameBits cfg m a.toNat d)

/-- `h` is the history of `s`, in a configuration with the wire values of R6: the trace is whole frames and pin setups,
one after another (R68, R90), and the ghost state says of them what R30, R168, R181 and R183 mean it to say. -/
structure IsHistory (s : State) (h : List WireItem) : Prop where
  fixedWire : s.cfg.FixedWire
  trace : s.trace = h.flatMap (WireItem.events s.cfg)
  padding : ∀ c p, WireItem.command c p ∈ h → p = s.cfg.padBit
  pinsReady : s.pinsReady = true ↔ WireItem.setup ∈ h
  oscSent : s.oscSent = true ↔ ∃ p, WireItem.command s.cfg.cmdOsc p ∈ h
  biasSent : s.biasSent = true ↔ ∃ p, WireItem.command s.cfg.cmdBias p ∈ h
  preInitTransmit : s.haz.preInitTransmit = true ↔
    ∃ before x after, h = before ++ x :: after ∧ WireItem.setup ∉ before ∧ x ≠ WireItem.setup
  onBeforeConfig : s.haz.onBeforeConfig = true ↔
    ∃ before p after, h = before ++ WireItem.command s.cfg.cmdLcdOn p :: after ∧
      ¬((∃ q, WireItem.command s.cfg.cmdOsc q ∈ before) ∧ ∃ q, WireItem.command s.cfg.cmdBias q ∈ before)

/-- Some history explains the trace and the ghost state. -/
def HasHistory (s : State) : Prop := ∃ h, IsHistory s h

/-! ## The latches and the trace -/

/-- The latch of a line. -/
def latch (s : State) : Line → Bool
  | .cs => s.lineCs
  | .wr => s.lineWr
  | .data => s.lineData

/-- The level an event list leaves a line at, from a level that may be unknown: the last one set (R27). The pin setup
leaves `CS` high and the other two unknown (R31, D24). -/
def levelAfter (l : Line) : Option Bool → List Event → Option Bool
  | known, [] => known
  | known, .pin k b :: es => levelAfter l (if k = l then some b else known) es
  | _, .pinSetup :: es => levelAfter l (if l = .cs then some true else none) es

/-- Every latch holds the level the trace says was last set on its line, where the trace says one. -/
def LatchesFollowTrace (s : State) : Prop := ∀ l b, levelAfter l none s.trace = some b → latch s l = b

/-! ## The invariant -/

/-- What every state of a run satisfies: the wire has the values of R6, the buffer has its size, chip-select is inactive between operations once the
pins are set up (D24, R101), and the latches follow the trace. -/
structure Inv (s : State) : Prop where
  fixedWire : s.cfg.FixedWire
  rows : RowsWf s
  idleHigh : s.pinsReady = true → s.lineCs = true
  latches : LatchesFollowTrace s

/-- How many events an operation appends in a configuration with the wire values of R6: the table of R187, R86 for SEND_BITS,
R101 for the frame rows, R162 for the reserved rows. -/
def eventCount (cfg : Config) : Instr → Nat
  | .init => 153
  | .setRow _ _ => 0
  | .setChar _ _ _ => 0
  | .setString _ _ => 0
  | .flush => 53 * cfg.nRows
  | .setOn => 38
  | .setOff => 38
  | .sendCommand _ => 38
  | .sendData _ _ _ => 53
  | .reservedOp0 _ => 0
  | .reservedOpAB _ _ => 0
  | .reservedOpCF _ _ => 0
  | .sendBits _ n => if n ≤ 8 then 3 * n else 0
  | .wCmd _ _ => 38
  | .wWr _ _ _ => 53
  | .cmdSysEn _ => 38
  | .cmdOsc _ => 38
  | .cmdBias _ => 38
  | .cmdLcdOn _ => 38
  | .cmdLcdOff _ => 38

/-- The operations that write the row buffer (R45, R115). -/
def writesRows : Instr → Bool
  | .setRow _ _ => true
  | .setChar _ _ _ => true
  | .setString _ _ => true
  | .init => false
  | .flush => false
  | .setOn => false
  | .setOff => false
  | .sendCommand _ => false
  | .sendData _ _ _ => false
  | .reservedOp0 _ => false
  | .reservedOpAB _ _ => false
  | .reservedOpCF _ _ => false
  | .sendBits _ _ => false
  | .wCmd _ _ => false
  | .wWr _ _ _ => false
  | .cmdSysEn _ => false
  | .cmdOsc _ => false
  | .cmdBias _ => false
  | .cmdLcdOn _ => false
  | .cmdLcdOff _ => false

end Sys2Proof
end

