-- ==== Sys2Proof/Certificates/Slice0/Obligations.lean ====
section
/-! DEFINITION. The statements about the block, one for a group of rules of spec/. None of them rests on a value the
model chose: the configuration, the row buffer, the latches, the requests and the texts are arbitrary in each. What is
said of a frame takes the command tag and the bit counts to be the ones R6 makes normative (`Config.FixedWire`, a part
of `Config.Legal`). -/

open Sys2Proof Sys2Proof.Machine

/-! ## Encoding -/

/-- R60, R61, R63 on the words V6.1 to V6.17 of spec/95_test_vectors.md, in their order: each reads as the request the
spec lists, and the words with a reserved bit set are refused by the decoder. -/
def Obligations.HostWordsDecodeAsTheSpecLists : Prop :=
  decode 0x00000001#32 = .ok .init ∧
  decode 0x005A0302#32 = .ok (.setRow 3 0x5A#8) ∧
  decode 0x00310513#32 = .ok (.setChar 5 0x31#8 true) ∧
  decode 0x00000014#32 = .ok (.setString 0 true) ∧
  decode 0x00000005#32 = .ok .flush ∧
  decode 0x00000006#32 = .ok .setOn ∧
  decode 0x00000007#32 = .ok .setOff ∧
  decode 0x00000308#32 = .ok (.sendCommand 0x03#8) ∧
  decode 0x009647A9#32 = .ok (.sendData 0x47 0x96#8 5#3) ∧
  decode 0x005A06C9#32 = .ok (.sendData 6 0x5A#8 6#3) ∧
  decode 0x00000000#32 = .ok (.reservedOp0 0#28) ∧
  decode 0x0000000A#32 = .ok (.reservedOpAB 0#1 0#28) ∧
  decode 0x00000101#32 = .error (.reservedBits 0x1#4) ∧
  decode 0x005A0312#32 = .error (.reservedBits 0x2#4) ∧
  decode 0x01000005#32 = .error (.reservedBits 0x5#4) ∧
  decode 0x00010004#32 = .error (.reservedBits 0x4#4) ∧
  decode 0x00000328#32 = .error (.reservedBits 0x8#4)

/-- R60 to R64: every well-formed request has a word, and the decoder reads that word as the request, every operand at
every value. -/
def Obligations.DecodeOfEncodeIsTheInstruction : Prop :=
  ∀ i : Instr, i.wellFormed = true → i.onHostSurface = true → ∃ w, encode i = some w ∧ decode w = .ok i

/-- R60 to R64: a word the decoder reads is the word of what it reads, so each request has one word and no bit of a word
is dropped. -/
def Obligations.DecodedWordEncodesBack : Prop :=
  ∀ (w : Word) (i : Instr), decode w = .ok i →
    i.wellFormed = true ∧ i.onHostSurface = true ∧ encode i = some w

/-- R73: no host word stands for SEND_BITS, nor for any other thing the frame encoder does inside an operation. -/
def Obligations.InternalOperationsHaveNoHostWord : Prop :=
  ∀ i : Instr, i.onHostSurface = false → encode i = none ∧ ∀ w, decode w ≠ .ok i

/-- R62: a word with `OP` 0x0 or 0xA to 0xF is a reserved request, and serving it sets the refusal mark and changes no
other state. -/
def Obligations.ReservedOpsAreRefused : Prop :=
  ∀ w : Word, (opField w = 0x0#4 ∨ 0xA ≤ (opField w).toNat) →
    ∃ i, decode w = .ok i ∧ ∀ s : State, exec i s = .next { s with refused := true }

/-- R63: the mask and match of each operation. A word of an operation's `OP` that matches is read as an operation; one
that does not is refused like a reserved `OP`. -/
def Obligations.ReservedBitsAreRefused : Prop :=
  ∀ (op : BitVec 4) (mask pattern : Word),
    (op, mask, pattern) ∈ ([
      (0x1#4, 0xFFFFFFFF#32, 0x00000001#32), (0x2#4, 0xFF0000FF#32, 0x00000002#32),
      (0x3#4, 0xFF0000EF#32, 0x00000003#32), (0x4#4, 0xFFFF00EF#32, 0x00000004#32),
      (0x5#4, 0xFFFFFFFF#32, 0x00000005#32), (0x6#4, 0xFFFFFFFF#32, 0x00000006#32),
      (0x7#4, 0xFFFFFFFF#32, 0x00000007#32), (0x8#4, 0xFFFF00FF#32, 0x00000008#32),
      (0x9#4, 0xFF00001F#32, 0x00000009#32)] : List (BitVec 4 × Word × Word)) →
    ∀ w : Word, opField w = op →
      (w &&& mask = pattern → ∃ i, decode w = .ok i) ∧
      (w &&& mask ≠ pattern → ∃ e, decode w = .error e ∧ ∀ s : State, rejectWord e s = .next { s with refused := true })

/-- The two wire rows of the opcode table run as operations, which is the model's choice, as are the padding bit `p` as
an operand that need not be `PAD_BIT` and the ghost update of a command frame (DESIGN CHOICE, log entry 9): each emits
its frame between a fall and a rise of `CS`, leaves the lines as they are after a frame, updates the ghost state as for
the frame of an operation, and changes nothing else. The frames are those of the formats W-CMD and W-WR, bit by bit. -/
def Obligations.WireRowsEmitTheirFrames : Prop :=
  (∀ (c : Byte) (p : Bool) (s : State), s.cfg.FixedWire →
    exec (.wCmd c p) s = .next (afterCommandFrame c p s) ∧
    commandBits s.cfg c p = [true, false, false, c.getLsbD 7, c.getLsbD 6, c.getLsbD 5, c.getLsbD 4, c.getLsbD 3,
      c.getLsbD 2, c.getLsbD 1, c.getLsbD 0, p]) ∧
  (∀ (m : Tag) (a : BitVec 6) (d : Byte) (s : State), s.cfg.FixedWire →
    exec (.wWr m a d) s = .next (afterDataFrame m a.toNat d s) ∧
    dataFrameBits s.cfg m a.toNat d = [m.getLsbD 2, m.getLsbD 1, m.getLsbD 0, a.getLsbD 5, a.getLsbD 4, a.getLsbD 3,
      a.getLsbD 2, a.getLsbD 1, a.getLsbD 0, d.getLsbD 7, d.getLsbD 6, d.getLsbD 5, d.getLsbD 4, d.getLsbD 3,
      d.getLsbD 2, d.getLsbD 1, d.getLsbD 0])

/-- R66 to R68: a receiver reads a wire frame back as the frame it is. -/
def Obligations.WireFramesReadBack : Prop :=
  (∀ (cfg : Config) (c : Byte) (p : Bool), cfg.FixedWire →
    (encodeWire cfg (.wCmd c p)).bind (decodeWire cfg) = some (.wCmd c p)) ∧
  (∀ (cfg : Config) (m : Tag) (a : BitVec 6) (d : Byte), cfg.FixedWire →
    (encodeWire cfg (.wWr m a d)).bind (decodeWire cfg) = some (.wWr m a d))

/-- R69: with five distinct codes (D21) a receiver tells the named command frames apart. -/
def Obligations.NamedCommandFramesReadBack : Prop :=
  ∀ (cfg : Config) (p : Bool), cfg.FixedWire → cfg.DistinctCodes →
    ∀ i ∈ [Instr.cmdSysEn p, .cmdOsc p, .cmdBias p, .cmdLcdOn p, .cmdLcdOff p],
      (encodeWire cfg i).bind (decodeNamedCommand cfg) = some i

/-! ## Steps and runs -/

/-- R13, R65, R180: a step takes the next request, puts its text on the text port and runs the operation its word
decodes to; a word the decoder refuses is refused; with nothing pending the block waits. `withFetchWord` puts a word
exactly where the step takes it. The queue of requests is the model's (log entry 6). -/
def Obligations.StepRunsTheNextRequest : Prop :=
  (∀ (s : State) (r : Request) (rest : List Request) (i : Instr), s.pending = r :: rest → decode r.word = .ok i →
    step s = exec i { s with pending := rest, textPort := r.text }) ∧
  (∀ (s : State) (r : Request) (rest : List Request) (e : DecodeError), s.pending = r :: rest →
    decode r.word = .error e → step s = .next { s with pending := rest, textPort := r.text, refused := true }) ∧
  (∀ s : State, s.pending = [] → step s = .next s) ∧
  (∀ (s : State) (nbits w : Nat) (i : Instr), decodeTableWord nbits w = some i →
    step (s.withFetchWord nbits w) = exec i s)

/-- R49, R165, R189: requests are served one a step, in order, and every run of them completes. The queue of
requests is the model's (log entry 6). -/
def Obligations.RunsServeEveryRequestInOrder : Prop :=
  ∀ (s : State) (first later : List Request), s.cfg.FixedWire → s.pending = first ++ later →
    ∃ t : State, Sys2Proof.core.run first.length s = .next t ∧ t.pending = later

/-- R160: the block has no exceptions, so every operation and every step completes. -/
def Obligations.EveryOperationCompletes : Prop :=
  (∀ (i : Instr) (s : State), ∃ t, exec i s = .next t) ∧ ∀ s : State, ∃ t, step s = .next t

/-- R71, R94: an omitted `dp` or `num` is 0 and an omitted mode is `WRITE_TAG`. -/
def Obligations.OmittedOperandsTakeTheirDefaults : Prop :=
  (∀ (pos : Int) (ch : Byte), asmSetChar pos ch none = .setChar pos ch false) ∧
  (∀ start : Int, asmSetString start none = .setString start false) ∧
  (∀ (cfg : Config) (a : Nat) (v : Byte), asmSendData cfg a v none = .sendData a v cfg.writeTag) ∧
  (∀ (cfg : Config) (pos : Int) (ch : Byte) (dp num : Bool) (a : Nat) (v : Byte) (m : Tag),
    asmSetChar pos ch (some dp) = .setChar pos ch dp ∧ asmSetString pos (some num) = .setString pos num ∧
    asmSendData cfg a v (some m) = .sendData a v m)

/-! ## SEND_BITS -/

/-- R80, R81, R82: SEND_BITS sends the `n` top bits of `v`, the most significant first, three events a bit; with `n = 0` it
does nothing. Beside the trace, `WR` and `DATA` that R80 lists it changes the mark of a pin call, which is the model's
reading of R168 (DEDUCED, log entry 11), and it runs whatever level `CS` has (DEDUCED, log entry 10). -/
def Obligations.SendBitsShiftsOutTheTopBits : Prop :=
  ∀ (v : Byte) (n : Nat) (s : State), n ≤ 8 →
    exec (.sendBits v n) s = .next
      { s with
        trace := s.trace ++ (List.range n).flatMap fun k =>
          [Event.pin .wr false, .pin .data (v.getLsbD (7 - k)), .pin .wr true]
        lineWr := if n = 0 then s.lineWr else true
        lineData := if n = 0 then s.lineData else v.getLsbD (8 - n)
        haz := if n = 0 then s.haz else hazAfterPins s }

/-- R86: `3n` events, and the lines after them. -/
def Obligations.SendBitsEventsAndLines : Prop :=
  ∀ (v : Byte) (n : Nat) (s : State), n ≤ 8 →
    ∃ t events, exec (.sendBits v n) s = .next t ∧ t.trace = s.trace ++ events ∧ events.length = 3 * n ∧
      (1 ≤ n → t.lineWr = true ∧ t.lineData = v.getLsbD (8 - n)) ∧ t.lineCs = s.lineCs

/-- R83, R162 (c): a count above 8 is refused: `REFUSED` is set and nothing else changes. -/
def Obligations.SendBitsAboveEightIsRefused : Prop :=
  ∀ (v : Byte) (n : Nat) (s : State), 8 < n → exec (.sendBits v n) s = .next { s with refused := true }

/-- R85: with `CS` low, what is received of SEND_BITS is `v[7], ..., v[8-n]`, the binary string of `v` cut to `n`. -/
def Obligations.SendBitsIsReceivedMsbFirst : Prop :=
  ∀ (v : Byte) (n : Nat) (s : State) (data : Bool), n ≤ 8 →
    ∃ t events, exec (.sendBits v n) s = .next t ∧ t.trace = s.trace ++ events ∧
      received false data events = (List.range n).map (fun k => v.getLsbD (7 - k)) ∧
      received false data events = (binBits 8 v.toNat).take n

/-! ## Frames -/

/-- R90, R91, R168: SEND_COMMAND emits one command frame with the code as given and the padding bit `PAD_BIT`, updates the
ghost state, and changes nothing else. -/
def Obligations.SendCommandEmitsOneFrame : Prop :=
  ∀ (cmd : Byte) (s : State), s.cfg.FixedWire →
    exec (.sendCommand cmd) s = .next (afterCommandFrame cmd s.cfg.padBit s)

/-- The five named command rows of the opcode table run as operations, with the padding bit as an operand, which is the
model's choice (DESIGN CHOICE, log entry 9): each emits the command frame of its configured code, not of the default the
table shows (DEDUCED, log entry 12), and changes nothing else. -/
def Obligations.NamedCommandsEmitTheirFrames : Prop :=
  ∀ (p : Bool) (s : State), s.cfg.FixedWire →
    exec (.cmdSysEn p) s = .next (afterCommandFrame s.cfg.cmdSysEn p s) ∧
    exec (.cmdOsc p) s = .next (afterCommandFrame s.cfg.cmdOsc p s) ∧
    exec (.cmdBias p) s = .next (afterCommandFrame s.cfg.cmdBias p s) ∧
    exec (.cmdLcdOn p) s = .next (afterCommandFrame s.cfg.cmdLcdOn p s) ∧
    exec (.cmdLcdOff p) s = .next (afterCommandFrame s.cfg.cmdLcdOff p s)

/-- R90, R92, R95: SEND_DATA emits one data frame, with no check of any operand, and changes nothing else. -/
def Obligations.SendDataEmitsOneFrame : Prop :=
  ∀ (address : Nat) (value : Byte) (mode : Tag) (s : State), s.cfg.FixedWire →
    exec (.sendData address value mode) s = .next (afterDataFrame mode address value s)

/-- R93: the byte that carries the address, and that address bits 6 and above never reach the wire. -/
def Obligations.WireAddressIsTheAddressModulo64 : Prop :=
  (∀ (cfg : Config) (address : Nat), cfg.FixedWire →
    (fieldByte cfg.addrBits address).toNat = address % 64 * 4) ∧
  (∀ (address : Nat) (value : Byte) (mode : Tag) (s : State), s.cfg.FixedWire →
    exec (.sendData address value mode) s = exec (.sendData (address % 64) value mode) s) ∧
  (∀ (address : Nat) (value : Byte) (mode : Tag) (s : State) (data : Bool), s.cfg.FixedWire →
    ∃ t events, exec (.sendData address value mode) s = .next t ∧ t.trace = s.trace ++ events ∧
      ((received s.lineCs data events).drop 3).take 6 = (List.range 6).map fun k => address.testBit (5 - k))

/-- R100: a command frame is received as its 12 bits and a data frame as its 17, each as one frame. -/
def Obligations.FramesAreReceivedBitExact : Prop :=
  (∀ (cmd : Byte) (s : State) (data : Bool), s.cfg.FixedWire →
    ∃ t events, exec (.sendCommand cmd) s = .next t ∧ t.trace = s.trace ++ events ∧
      received s.lineCs data events = [true, false, false] ++ binBits 8 cmd.toNat ++ [s.cfg.padBit] ∧
      (received s.lineCs data events).length = 12 ∧
      receivedFrames none data events = [received s.lineCs data events]) ∧
  (∀ (address : Nat) (value : Byte) (mode : Tag) (s : State) (data : Bool), s.cfg.FixedWire →
    ∃ t events, exec (.sendData address value mode) s = .next t ∧ t.trace = s.trace ++ events ∧
      received s.lineCs data events =
        binBits 3 mode.toNat ++ binBits 6 (address % 64) ++ binBits 8 value.toNat ∧
      (received s.lineCs data events).length = 17 ∧
      receivedFrames none data events = [received s.lineCs data events])

/-- R101: 38 and 53 events, and the lines after either frame. -/
def Obligations.FrameEventCountsAndLines : Prop :=
  (∀ (cmd : Byte) (s : State), s.cfg.FixedWire →
    ∃ t events, exec (.sendCommand cmd) s = .next t ∧ t.trace = s.trace ++ events ∧ events.length = 38 ∧
      t.lineCs = true ∧ t.lineWr = true ∧ t.lineData = s.cfg.padBit) ∧
  (∀ (address : Nat) (value : Byte) (mode : Tag) (s : State), s.cfg.FixedWire →
    ∃ t events, exec (.sendData address value mode) s = .next t ∧ t.trace = s.trace ++ events ∧
      events.length = 53 ∧ t.lineCs = true ∧ t.lineWr = true ∧ t.lineData = value.getLsbD 0)

/-! ## INIT -/

/-- R96, R97, R98, R168: INIT sets the pins up and sends the four commands in order. The ghost flags are set, the rows and
everything else stay; with five distinct codes (D21) no mark is added, and with any codes PRE_INIT_TRANSMIT is not.
The counter of drawn levels is the model's (log entry 5). -/
def Obligations.InitBringsTheChipUp : Prop :=
  ∀ s : State, s.cfg.FixedWire → ∃ haz : HazardSet,
    exec .init s = .next
      { s with
        trace := s.trace ++ [Event.pinSetup] ++ [s.cfg.cmdSysEn, s.cfg.cmdOsc, s.cfg.cmdBias, s.cfg.cmdLcdOn].flatMap
          fun c => frameEvents (commandBits s.cfg c s.cfg.padBit)
        lineCs := true
        lineWr := true
        lineData := s.cfg.padBit
        pinsReady := true
        oscSent := true
        biasSent := true
        haz := haz
        draws := s.draws + 2 } ∧
    haz.preInitTransmit = s.haz.preInitTransmit ∧ (s.cfg.DistinctCodes → haz = s.haz)

/-- R97: what a receiver sees of INIT is exactly four command frames, in the fixed order, after the pin setup. -/
def Obligations.InitIsReceivedAsFourCommands : Prop :=
  ∀ (s : State) (data : Bool), s.cfg.FixedWire → ∃ t events,
    exec .init s = .next t ∧ t.trace = s.trace ++ Event.pinSetup :: events ∧
    receivedFrames none data events =
      [s.cfg.cmdSysEn, s.cfg.cmdOsc, s.cfg.cmdBias, s.cfg.cmdLcdOn].map fun c => commandBits s.cfg c s.cfg.padBit

/-- R98, R168: the pin setup records its event, makes the pins ready and leaves `CS` inactive (the spec's assumption
D24). What it leaves `WR` and `DATA` at is not said (R31): log entry 5. -/
def Obligations.PinSetupMakesThePinsReady : Prop :=
  ∀ s : State, pinSetup s =
    { s with
      trace := s.trace ++ [Event.pinSetup]
      pinsReady := true
      lineCs := true
      lineWr := (pinSetup s).lineWr
      lineData := (pinSetup s).lineData
      draws := (pinSetup s).draws }

/-! ## The row buffer -/

/-- R110: SET_ROW changes its row in range and nothing out of range; nothing else changes. -/
def Obligations.SetRowWritesItsRowOrNothing : Prop :=
  ∀ (row : Int) (data : Byte) (s : State),
    (0 ≤ row ∧ row < (s.cfg.nRows : Int) →
      exec (.setRow row data) s = .next { s with rows := s.rows.set row.toNat data }) ∧
    (¬(0 ≤ row ∧ row < (s.cfg.nRows : Int)) → exec (.setRow row data) s = .next s)

/-- R114: reading the row after the write yields the data, every other row is as it was, and out of range the buffer is
unchanged. -/
def Obligations.SetRowReadsBack : Prop :=
  ∀ (row : Int) (data : Byte) (s : State), RowsWf s →
    ∃ t, exec (.setRow row data) s = .next t ∧
      (0 ≤ row ∧ row < (s.cfg.nRows : Int) →
        readRow row.toNat t = data ∧ ∀ r, r ≠ row.toNat → readRow r t = readRow r s) ∧
      (¬(0 ≤ row ∧ row < (s.cfg.nRows : Int)) → t.rows = s.rows)

/-- R47: SET_ROW with the same operands is idempotent; FLUSH appends its frames again on every call, the same ones when
no operation between the two calls writes the buffer, however many there are. -/
def Obligations.RepeatedRequests : Prop :=
  (∀ (row : Int) (data : Byte) (s t : State), exec (.setRow row data) s = .next t →
    exec (.setRow row data) t = .next t) ∧
  (∀ s : State, s.cfg.Legal → ∃ t events, exec .flush s = .next t ∧ t.trace = s.trace ++ events ∧ events ≠ [] ∧
    ∀ (between : List Instr) (v : State), (∀ i ∈ between, writesRows i = false) → execAll between t = .next v →
      ∃ u, exec .flush v = .next u ∧ u.trace = v.trace ++ events)

/-- R111: FLUSH sends every row, row 0 first, row `r` to chip address `2r`, and changes nothing else. -/
def Obligations.FlushSendsEveryRow : Prop :=
  ∀ s : State, s.cfg.Legal →
    exec .flush s = .next
      { s with
        trace := s.trace ++ (List.range s.cfg.nRows).flatMap fun r =>
          frameEvents (dataFrameBits s.cfg s.cfg.writeTag (2 * r) (readRow r s))
        lineCs := true
        lineWr := true
        lineData := (readRow (s.cfg.nRows - 1) s).getLsbD 0
        haz := hazAfterPins s }

/-- R99, R111: a receiver sees `N_ROWS` frames, one for each row, and frame `r` carries the write tag, `2r` and
`ROW[r]`. -/
def Obligations.FlushIsReceivedRowByRow : Prop :=
  ∀ (s : State) (data : Bool), RowsWf s → s.cfg.FixedWire →
    ∃ t events, exec .flush s = .next t ∧ t.trace = s.trace ++ events ∧
      (receivedFrames none data events).length = s.cfg.nRows ∧
      ∀ (r : Nat) (v : Byte), s.rows[r]? = some v →
        (receivedFrames none data events)[r]? =
          some (binBits 3 s.cfg.writeTag.toNat ++ binBits 6 (2 * r) ++ binBits 8 v.toNat)

/-- R115: what FLUSH appends depends on the rows, `N_ROWS` and `WRITE_TAG` alone; the operations other than SET_ROW,
SET_CHAR and SET_STRING leave the buffer as it is; so two FLUSH requests with only such operations between them append
the same events. -/
def Obligations.FlushDependsOnTheBufferAlone : Prop :=
  (∀ s₁ s₂ : State, s₁.cfg.FixedWire → s₂.cfg.FixedWire → s₁.rows = s₂.rows → s₁.cfg.nRows = s₂.cfg.nRows →
    s₁.cfg.writeTag = s₂.cfg.writeTag →
    ∃ t₁ t₂ events, exec .flush s₁ = .next t₁ ∧ exec .flush s₂ = .next t₂ ∧
      t₁.trace = s₁.trace ++ events ∧ t₂.trace = s₂.trace ++ events) ∧
  (∀ (i : Instr) (s t : State), s.cfg.FixedWire → writesRows i = false → exec i s = .next t →
    t.rows = s.rows ∧ t.cfg = s.cfg) ∧
  (∀ (s t v : State) (between : List Instr), s.cfg.FixedWire → exec .flush s = .next t → (∀ i ∈ between, writesRows i = false) →
    execAll between t = .next v →
    ∃ u events, t.trace = s.trace ++ events ∧ exec .flush v = .next u ∧ u.trace = v.trace ++ events)

/-- R53, R184: a row write reaches the chip with the next FLUSH, and not before. SET_ROW, SET_CHAR and SET_STRING put
nothing on the wire, and a FLUSH after one is received as one frame for each row, with what the row then holds; for
SET_ROW that is the byte it wrote. -/
def Obligations.FlushSendsTheLatestRow : Prop :=
  (∀ (i : Instr) (s : State) (data : Bool), RowsWf s → s.cfg.FixedWire → writesRows i = true →
    ∃ t u events, exec i s = .next t ∧ t.trace = s.trace ∧ exec .flush t = .next u ∧ u.trace = t.trace ++ events ∧
      (receivedFrames none data events).length = s.cfg.nRows ∧
      ∀ r, r < s.cfg.nRows →
        (receivedFrames none data events)[r]? = some (dataFrameBits s.cfg s.cfg.writeTag (2 * r) (readRow r t))) ∧
  (∀ (s : State) (row : Nat) (v : Byte) (data : Bool), RowsWf s → s.cfg.FixedWire → row < s.cfg.nRows →
    ∃ t u events, exec (.setRow (row : Int) v) s = .next t ∧ t.trace = s.trace ∧ exec .flush t = .next u ∧
      u.trace = t.trace ++ events ∧
      (receivedFrames none data events)[row]? = some (dataFrameBits s.cfg s.cfg.writeTag (2 * row) v))

/-- R111, R93: with more than 32 rows, the frames FLUSH sends for rows `r` and `r + 32` carry the same wire address, bits
3 to 8 of each. -/
def Obligations.FlushAddressesWrapAt32Rows : Prop :=
  ∀ (s : State) (data : Bool) (r : Nat), RowsWf s → s.cfg.FixedWire → r + 32 < s.cfg.nRows →
    ∃ t events near far, exec .flush s = .next t ∧ t.trace = s.trace ++ events ∧
      (receivedFrames none data events)[r]? = some near ∧ (receivedFrames none data events)[r + 32]? = some far ∧
      (near.drop 3).take 6 = (far.drop 3).take 6 ∧ (near.drop 3).take 6 = binBits 6 (2 * r)

/-- R112, R113: SET_ON and SET_OFF send their command frame and change nothing else; SET_OFF, whose code is none of the
three the ghost state watches, changes no ghost flag and adds no ON_BEFORE_CONFIG. -/
def Obligations.SetOnAndSetOffSendTheirCommand : Prop :=
  ∀ s : State, s.cfg.FixedWire →
    exec .setOn s = .next (afterCommandFrame s.cfg.cmdLcdOn s.cfg.padBit s) ∧
    exec .setOff s = .next (afterCommandFrame s.cfg.cmdLcdOff s.cfg.padBit s) ∧
    (s.cfg.cmdLcdOff ∉ [s.cfg.cmdOsc, s.cfg.cmdBias, s.cfg.cmdLcdOn] → ∀ t, exec .setOff s = .next t →
      t.pinsReady = s.pinsReady ∧ t.oscSent = s.oscSent ∧ t.biasSent = s.biasSent ∧ t.haz.onBeforeConfig = s.haz.onBeforeConfig)

/-! ## The character translator -/

/-- R134: SET_CHAR writes the map's entry at the code, or at the blank index for a code outside the map, with the decimal
point when asked; the row's old value plays no part and every other row stays. -/
def Obligations.SetCharWritesTheGlyph : Prop :=
  ∀ (s : State) (position : Int) (c : Byte) (dp : Bool) (entry : Byte), RowsWf s →
    0 ≤ position → position < (s.cfg.nRows : Int) →
    (s.cfg.charMap[c.toNat]? = some entry ∨
      s.cfg.mapSize ≤ c.toNat ∧ s.cfg.charMap[s.cfg.blankIndex]? = some entry) →
    ∃ t, exec (.setChar position c dp) s = .next t ∧
      readRow position.toNat t = (if dp then entry ||| s.cfg.dpMask else entry) ∧
      ∀ r, r ≠ position.toNat → readRow r t = readRow r s

/-- R132: SET_CHAR writes one row in range and nothing out of range; nothing else changes. -/
def Obligations.SetCharChangesOneRowOrNothing : Prop :=
  ∀ (position : Int) (c : Byte) (dp : Bool) (s : State),
    (0 ≤ position ∧ position < (s.cfg.nRows : Int) →
      exec (.setChar position c dp) s = .next { s with rows := s.rows.set position.toNat (glyph s.cfg c dp) }) ∧
    (¬(0 ≤ position ∧ position < (s.cfg.nRows : Int)) → exec (.setChar position c dp) s = .next s)

/-- R44, R130: the map is never read outside its entries. -/
def Obligations.MapLookupStaysInsideTheMap : Prop :=
  ∀ (cfg : Config) (c : Byte), cfg.Legal → cfg.charMap[mapIndex cfg c]? = some (readMap cfg (mapIndex cfg c))

/-! ## The string layout -/

/-- R140 to R147: SET_STRING leaves in position `LAST_POS - k` the glyph of the `k`-th character its text places, and
every other row as it was; it changes nothing else. `placedChars` reads the text once, left to right, as a list of
digits. In numeric mode '.' and the terminator are two codes, as R145 says (log entry 21). -/
def Obligations.SetStringPlacesItsText : Prop :=
  ∀ (s : State) (start : Int) (numeric : Bool), RowsWf s → (numeric = false ∨ s.cfg.PointIsNoTerminator) →
    ∃ t, exec (.setString start numeric) s = .next t ∧ t = { s with rows := t.rows } ∧
      t.rows.length = s.rows.length ∧
      ∀ r, r < s.cfg.nRows → readRow r t =
        if r ≤ s.cfg.lastPos then
          match (placedChars s.cfg numeric s.textPort)[s.cfg.lastPos - r]? with
          | some (c, dp) => glyph s.cfg c dp
          | none => readRow r s
        else readRow r s

/-- R152: the document's three scenarios, in any configuration with six slots, six rows or more, and the codes D13 chooses
for '.', '0' and the terminator (ASCII, PRESUMED, log entry 20; the texts are written in the same code). -/
def Obligations.SetStringScenarios : Prop :=
  ∀ s : State, RowsWf s → 6 ≤ s.cfg.nRows → s.cfg.slots = 6 → s.cfg.AsciiCodes →
    (s.textPort = [0x54#8, 0x65#8, 0x73#8, 0x74#8] →
      ∃ t, exec (.setString 0 false) s = .next t ∧
        readRow 5 t = glyph s.cfg 0x54#8 false ∧ readRow 4 t = glyph s.cfg 0x65#8 false ∧
        readRow 3 t = glyph s.cfg 0x73#8 false ∧ readRow 2 t = glyph s.cfg 0x74#8 false ∧
        readRow 1 t = readRow 1 s ∧ readRow 0 t = readRow 0 s) ∧
    (s.textPort = [0x31#8, 0x2E#8, 0x35#8] →
      ∃ t, exec (.setString 0 true) s = .next t ∧
        readRow 5 t = glyph s.cfg 0x31#8 true ∧ readRow 4 t = glyph s.cfg 0x35#8 false ∧
        ∀ r, r ≤ 3 → readRow r t = readRow r s) ∧
    (s.textPort = [0x2E#8, 0x35#8] →
      ∃ t, exec (.setString 0 true) s = .next t ∧
        readRow 5 t = glyph s.cfg 0x30#8 true ∧ readRow 4 t = glyph s.cfg 0x35#8 false)

/-- R140, R146, R147, R150: a text whose '.' is not folded fills the positions right to left with its first `SLOTS`
characters before the terminator. In numeric mode '.' and the terminator are two codes, as R145 says (log entry 21). -/
def Obligations.OrdinaryTextFillsThePositions : Prop :=
  ∀ (s : State) (start : Int) (numeric : Bool), RowsWf s →
    (numeric = false ∨ (s.cfg.dpChar ∉ s.textPort ∧ s.cfg.PointIsNoTerminator)) →
    ∃ t, exec (.setString start numeric) s = .next t ∧
      ∀ r, r < s.cfg.nRows → readRow r t =
        if r ≤ s.cfg.lastPos then
          match ((s.textPort.takeWhile fun c => c != s.cfg.terminator).take s.cfg.slots)[s.cfg.lastPos - r]? with
          | some c => glyph s.cfg c false
          | none => readRow r s
        else readRow r s

/-- R145, R65: the terminator ends the text, whatever follows it, exactly as the end of the byte sequence does; a text
that begins with it writes nothing. In numeric mode '.' and the terminator are two codes, as R145 says (log entry 21). -/
def Obligations.SetStringStopsAtTheTerminator : Prop :=
  (∀ (s : State) (start : Int) (numeric : Bool) (head tail : List Byte),
    (numeric = false ∨ s.cfg.PointIsNoTerminator) → s.textPort = head ++ s.cfg.terminator :: tail →
    ∃ t u, exec (.setString start numeric) s = .next t ∧
      exec (.setString start numeric) { s with textPort := head } = .next u ∧ t.rows = u.rows) ∧
  (∀ (s : State) (start : Int) (numeric : Bool), (numeric = false ∨ s.cfg.PointIsNoTerminator) →
    textAt s.cfg s.textPort 0 = s.cfg.terminator → exec (.setString start numeric) s = .next s)

/-- R149: the start position has no effect. -/
def Obligations.StartPositionHasNoEffect : Prop :=
  ∀ (a b : Int) (numeric : Bool) (s : State), exec (.setString a numeric) s = exec (.setString b numeric) s

/-- R151: SET_STRING writes rows in `[0, LAST_POS]` only, in every state. -/
def Obligations.SetStringStaysInItsPositions : Prop :=
  ∀ (start : Int) (numeric : Bool) (s : State),
    ∃ rows, exec (.setString start numeric) s = .next { s with rows := rows } ∧ rows.length = s.rows.length ∧
      ∀ r, s.cfg.lastPos < r → rows[r]? = s.rows[r]?

/-- R151: the loop ends by itself within `len + 1` iterations: a larger bound changes nothing. In numeric mode '.' and
the terminator are two codes, as R145 says (log entry 21). -/
def Obligations.LayoutEndsWithinTheText : Prop :=
  ∀ (cfg : Config) (text : List Byte) (numeric : Bool) (fuel : Nat) (s : State),
    (numeric = false ∨ cfg.PointIsNoTerminator) → text.length + 1 ≤ fuel →
    layout cfg text numeric fuel 0 0 s = layout cfg text numeric (text.length + 1) 0 0 s

/-! ## Refusals, hazards and the whole machine -/

/-- R62, R162: the reserved rows of the opcode table: `REFUSED` is set, and no row, latch, trace entry or anything else
changes. -/
def Obligations.ReservedRequestsOnlySetRefused : Prop :=
  ∀ s : State,
    (∀ payload, exec (.reservedOp0 payload) s = .next { s with refused := true }) ∧
    (∀ low payload, exec (.reservedOpAB low payload) s = .next { s with refused := true }) ∧
    (∀ low payload, exec (.reservedOpCF low payload) s = .next { s with refused := true })

/-- R160, R161, R162: an operation sets `REFUSED` only if it is a reserved request or a SEND_BITS with a count above 8, and
nothing clears it. -/
def Obligations.OnlyReservedRequestsAreRefused : Prop :=
  ∀ (i : Instr) (s t : State), s.cfg.FixedWire → exec i s = .next t →
    (t.refused = true ↔ s.refused = true ∨ (∃ p, i = .reservedOp0 p) ∨ (∃ l p, i = .reservedOpAB l p) ∨
      (∃ l p, i = .reservedOpCF l p) ∨ ∃ v n, i = .sendBits v n ∧ 8 < n)

/-- R187, R86, R101, R162: every operation appends a number of events that its row fixes: the host operations those of the
table of R187, SEND_BITS three a bit, the reserved rows and a refused SEND_BITS none. That the wire and named command
rows run as operations is the model's choice (DESIGN CHOICE, log entry 9); each appends the events of its frame. -/
def Obligations.OperationsAppendTheListedEvents : Prop :=
  ∀ (i : Instr) (s : State), s.cfg.FixedWire → ∃ t events,
    exec i s = .next t ∧ t.trace = s.trace ++ events ∧ events.length = eventCount s.cfg i

/-- R22, R45: the row operations touch neither the lines nor the trace nor the marks, and every other operation leaves
the rows as they are. -/
def Obligations.RowsAndLinesAreWrittenApart : Prop :=
  ∀ (i : Instr) (s t : State), s.cfg.FixedWire → exec i s = .next t →
    (writesRows i = true → t = { s with rows := t.rows }) ∧ (writesRows i = false → t.rows = s.rows)

/-- R168, R181, R183: which operations add which mark. With distinct codes (D21), PRE_INIT_TRANSMIT is added exactly by
an operation that emits pin events while the pins are not ready, other than INIT, and ON_BEFORE_CONFIG exactly by SET_ON
or a raw display-on before both oscillator and bias. -/
def Obligations.HazardsComeOnlyFromTheListedOperations : Prop :=
  ∀ (i : Instr) (s t : State), i.onHostSurface = true → s.cfg.Legal → s.cfg.DistinctCodes → exec i s = .next t →
    (t.haz.preInitTransmit = true ↔ s.haz.preInitTransmit = true ∨
      (s.pinsReady = false ∧ (i = .flush ∨ i = .setOn ∨ i = .setOff ∨ (∃ c, i = .sendCommand c) ∨
        ∃ a v m, i = .sendData a v m))) ∧
    (t.haz.onBeforeConfig = true ↔ s.haz.onBeforeConfig = true ∨
      ((i = .setOn ∨ i = .sendCommand s.cfg.cmdLcdOn) ∧ ¬(s.oscSent = true ∧ s.biasSent = true)))

/-- R21, R26, R28, R30, R162: no step changes the configuration or the number of rows, takes an event off the trace,
clears a ghost flag, takes a mark away or clears `REFUSED`. -/
def Obligations.StepsOnlyAddToTheRecord : Prop :=
  ∀ s t : State, s.cfg.FixedWire → step s = .next t →
    t.cfg = s.cfg ∧ t.rows.length = s.rows.length ∧ (∃ events, t.trace = s.trace ++ events) ∧
    (s.pinsReady = true → t.pinsReady = true) ∧ (s.oscSent = true → t.oscSent = true) ∧
    (s.biasSent = true → t.biasSent = true) ∧ (∀ h, s.haz.has h = true → t.haz.has h = true) ∧
    (s.refused = true → t.refused = true)

/-- R21, R27, R101: every step keeps the invariant: the buffer keeps `N_ROWS` rows, `CS` is inactive between operations
once the pins are set up, and every latch holds the last level the trace says was set. That `CS` is inactive right after
the pin setup is the spec's assumption (D24). -/
def Obligations.StepsKeepTheInvariant : Prop := ∀ s t : State, Inv s → step s = .next t → Inv t

/-- R68, R90, R97, R168: in every run the trace is whole frames and pin setups, never nested or overlapping, every command
frame carries `PAD_BIT`, and the ghost flags and marks say exactly what the history of the wire says. -/
def Obligations.StepsKeepTheHistory : Prop := ∀ s t : State, HasHistory s → step s = .next t → HasHistory t

/-- R31, R180: after reset, for every configuration, every draw of the rows and every level of the lines: the trace is
empty, the ghost flags are false, there is no mark and no refusal; the model's reset is one of these states, with a
legal configuration. -/
def Obligations.ResetClearsTheRecord : Prop :=
  (∀ (cfg : Config) (rows : List Byte) (cs wr data : Bool),
    let s := State.afterReset cfg rows cs wr data
    s.rows = rows ∧ s.cfg = cfg ∧ s.lineCs = cs ∧ s.lineWr = wr ∧ s.lineData = data ∧ s.trace = [] ∧
      s.pinsReady = false ∧ s.oscSent = false ∧ s.biasSent = false ∧ NoHazard s ∧ NotRefused s) ∧
  ∃ (cfg : Config) (rows : List Byte) (cs wr data : Bool), cfg.Legal ∧ rows.length = cfg.nRows ∧
    State.reset = State.afterReset cfg rows cs wr data

/-- The invariant and the history hold at reset, for every configuration, every draw and every level of the lines, and in
the model's reset state. -/
def Obligations.ResetMeetsTheInvariants : Prop :=
  (∀ (cfg : Config) (rows : List Byte) (cs wr data : Bool), cfg.FixedWire → rows.length = cfg.nRows →
    Inv (State.afterReset cfg rows cs wr data) ∧ HasHistory (State.afterReset cfg rows cs wr data)) ∧
  Inv State.reset ∧ HasHistory State.reset

/-- R96, R168, R181, R183: a host that issues INIT first never gets a mark, whatever it issues afterwards and however
often, in any configuration with distinct codes (D21) and from any draw at reset. The queue the run is served from is
the model's (log entry 6). The premise `REFUSED = false` of R189 is not needed: a refused request adds no mark. -/
def Obligations.InitFirstRunsRecordNoHazard : Prop :=
  ∀ (cfg : Config) (rows : List Byte) (cs wr data : Bool) (text : List Byte) (later : List Request) (n : Nat)
    (t : State), cfg.FixedWire → cfg.DistinctCodes →
    Sys2Proof.core.run n
      { State.afterReset cfg rows cs wr data with pending := { word := 0x00000001#32, text := text } :: later } =
      .next t →
    NoHazard t

/-- R168, R181, R183: once the pins are set up and the oscillator and the bias are selected, no step adds a mark or leaves
that condition; and INIT brings any state without a mark there, with five distinct codes (D21). -/
def Obligations.BroughtUpStatesStayFreeOfHazards : Prop :=
  (∀ s t : State, s.cfg.FixedWire → BroughtUp s → NoHazard s → step s = .next t → BroughtUp t ∧ NoHazard t) ∧
  (∀ s : State, s.cfg.FixedWire → s.cfg.DistinctCodes → NoHazard s →
    ∃ t, exec .init s = .next t ∧ BroughtUp t ∧ NoHazard t)
end

