-- ==== Sys2Proof/Laws/Decode.lean ====
section
/-! SUPPORT. The decoder by its table: what it reads stands in a row the word fits, and no two rows overlap. -/

namespace Sys2Proof.Laws

theorem decode_ok_iff_find (w : Word) (i : Instr) :
    decode w = .ok i ↔ ∃ row, (hostRows.find? fun row => fits w row.mask row.pattern) = some row ∧ i = row.read w := by
  unfold decode
  cases h : hostRows.find? fun row => fits w row.mask row.pattern with
  | none => simp
  | some row => simp [eq_comm]

/-- A decoded word fits the row its operation was read from. -/
theorem decode_ok_row (w : Word) (i : Instr) (h : decode w = .ok i) :
    ∃ row ∈ hostRows, w &&& row.mask = row.pattern ∧ i = row.read w := by
  obtain ⟨row, hf, hi⟩ := (decode_ok_iff_find w i).mp h
  exact ⟨row, List.mem_of_find?_eq_some hf, by simpa [fits] using List.find?_some hf, hi⟩

/-- A refused word fits no row. -/
theorem decode_error_row (w : Word) (e : DecodeError) (h : decode w = .error e) :
    e = .reservedBits (opField w) ∧ ∀ row ∈ hostRows, w &&& row.mask ≠ row.pattern := by
  unfold decode at h
  cases hf : hostRows.find? fun row => fits w row.mask row.pattern with
  | none =>
    rw [hf] at h
    refine ⟨by cases h; rfl, fun row hr => ?_⟩
    simpa [fits] using List.find?_eq_none.mp hf row hr
  | some row => rw [hf] at h; cases h

/-- Two rows of the table differ in a bit both of them fix: no word fits two rows. -/
theorem hostRows_disjoint :
    hostRows.Pairwise fun a b => a.pattern &&& (a.mask &&& b.mask) ≠ b.pattern &&& (a.mask &&& b.mask) := by
  decide

/-- A word that fits a row of the table is read as that row's operation: no other row fits it. -/
theorem decode_of_row (w : Word) (row : HostRow) (hr : row ∈ hostRows) (h : w &&& row.mask = row.pattern) :
    decode w = .ok (row.read w) := by
  have key : ∀ a b : HostRow, w &&& a.mask = a.pattern → w &&& b.mask = b.pattern →
      ¬ a.pattern &&& (a.mask &&& b.mask) ≠ b.pattern &&& (a.mask &&& b.mask) := by
    intro a b ha hb hne
    refine hne ?_
    rw [← ha, ← hb]
    refine BitVec.eq_of_getLsbD_eq fun i _ => ?_
    simp only [BitVec.getLsbD_and]
    cases w.getLsbD i <;> cases a.mask.getLsbD i <;> cases b.mask.getLsbD i <;> rfl
  have uniq : ∀ (l : List HostRow),
      (l.Pairwise fun a b => a.pattern &&& (a.mask &&& b.mask) ≠ b.pattern &&& (a.mask &&& b.mask)) → row ∈ l →
      (l.find? fun row => fits w row.mask row.pattern) = some row := by
    intro l hp hm
    induction l with
    | nil => cases hm
    | cons a l ih =>
      obtain ⟨ha, hl⟩ := List.pairwise_cons.mp hp
      rcases List.mem_cons.mp hm with rfl | hm
      · exact List.find?_cons_of_pos (by simpa [fits] using h)
      · rw [List.find?_cons_of_neg]
        · exact ih hl hm
        · exact fun hf => key a row (by simpa [fits] using hf) h (ha row hm)
  simp [decode, uniq hostRows hostRows_disjoint hr]

/-- What the decoder reads is always an operation of the host surface (R73). -/
theorem decode_onHostSurface (w : Word) (i : Instr) (h : decode w = .ok i) : i.onHostSurface = true := by
  obtain ⟨row, hr, -, rfl⟩ := decode_ok_row w i h
  have : ∀ row ∈ hostRows, (row.read w).onHostSurface = true := by simp [hostRows, Instr.onHostSurface]
  exact this row hr

/-! ## The fields of an encoded word -/

/-- Bit `i` of a word of format H, field by field. -/
theorem formH_getLsbD (op : BitVec 4) (f : Bool) (m : Tag) (a b : Byte) (i : Nat) :
    (formH op f m a b).getLsbD i =
      (decide (i < 32) && (op.getLsbD i || (!decide (i < 4) && (BitVec.ofBool f).getLsbD (i - 4)) ||
        (!decide (i < 5) && m.getLsbD (i - 5)) || (!decide (i < 8) && a.getLsbD (i - 8)) ||
        (!decide (i < 16) && b.getLsbD (i - 16)))) := by
  simp only [formH, BitVec.getLsbD_or, BitVec.getLsbD_shiftLeft, BitVec.getLsbD_setWidth]
  by_cases h : i < 32
  · have h4 : i - 4 < 32 := by omega
    have h5 : i - 5 < 32 := by omega
    have h8 : i - 8 < 32 := by omega
    have h16 : i - 16 < 32 := by omega
    simp only [h, h4, h5, h8, h16, decide_true, Bool.true_and]
  · simp [-BitVec.getLsbD_eq_getElem, h]

theorem opField_formH (op : BitVec 4) (f : Bool) (m : Tag) (a b : Byte) : opField (formH op f m a b) = op := by
  refine BitVec.eq_of_getLsbD_eq fun i hi => ?_
  have h5 : i < 5 := by omega
  have h8 : i < 8 := by omega
  have h16 : i < 16 := by omega
  have h32 : i < 32 := by omega
  simp [-BitVec.getLsbD_eq_getElem, opField, BitVec.getLsbD_extractLsb', formH_getLsbD, hi, h5, h8, h16, h32]

theorem modeField_formH (op : BitVec 4) (f : Bool) (m : Tag) (a b : Byte) : modeField (formH op f m a b) = m := by
  refine BitVec.eq_of_getLsbD_eq fun i hi => ?_
  have ho : op.getLsbD (5 + i) = false := BitVec.getLsbD_of_ge _ _ (by omega)
  have hf : (BitVec.ofBool f).getLsbD (5 + i - 4) = false := BitVec.getLsbD_of_ge _ _ (by omega)
  have h8 : 5 + i < 8 := by omega
  have h16 : 5 + i < 16 := by omega
  have h32 : 5 + i < 32 := by omega
  simp [-BitVec.getLsbD_eq_getElem, modeField, BitVec.getLsbD_extractLsb', formH_getLsbD, hi, ho, hf, h8, h16, h32]

theorem flagField_formH (op : BitVec 4) (f : Bool) (m : Tag) (a b : Byte) : flagField (formH op f m a b) = f := by
  simp [-BitVec.getLsbD_eq_getElem, flagField, formH_getLsbD]

theorem aField_formH (op : BitVec 4) (f : Bool) (m : Tag) (a b : Byte) : aField (formH op f m a b) = a := by
  refine BitVec.eq_of_getLsbD_eq fun i hi => ?_
  have ho : op.getLsbD (8 + i) = false := BitVec.getLsbD_of_ge _ _ (by omega)
  have hf : (BitVec.ofBool f).getLsbD (8 + i - 4) = false := BitVec.getLsbD_of_ge _ _ (by omega)
  have hm : m.getLsbD (8 + i - 5) = false := BitVec.getLsbD_of_ge _ _ (by omega)
  have h16 : 8 + i < 16 := by omega
  have h32 : 8 + i < 32 := by omega
  simp [-BitVec.getLsbD_eq_getElem, aField, BitVec.getLsbD_extractLsb', formH_getLsbD, hi, ho, hf, hm, h16, h32]

theorem bField_formH (op : BitVec 4) (f : Bool) (m : Tag) (a b : Byte) : bField (formH op f m a b) = b := by
  refine BitVec.eq_of_getLsbD_eq fun i hi => ?_
  have ho : op.getLsbD (16 + i) = false := BitVec.getLsbD_of_ge _ _ (by omega)
  have hf : (BitVec.ofBool f).getLsbD (16 + i - 4) = false := BitVec.getLsbD_of_ge _ _ (by omega)
  have hm : m.getLsbD (16 + i - 5) = false := BitVec.getLsbD_of_ge _ _ (by omega)
  have ha : a.getLsbD (16 + i - 8) = false := BitVec.getLsbD_of_ge _ _ (by omega)
  have h32 : 16 + i < 32 := by omega
  simp [-BitVec.getLsbD_eq_getElem, bField, BitVec.getLsbD_extractLsb', formH_getLsbD, hi, ho, hf, hm, ha, h32]

theorem opField_reservedWord (op : BitVec 4) (p : BitVec 28) : opField (reservedWord op p) = op := by
  refine BitVec.eq_of_getLsbD_eq fun i hi => ?_
  have h32 : i < 32 := by omega
  simp [-BitVec.getLsbD_eq_getElem, opField, reservedWord, BitVec.getLsbD_extractLsb', hi, h32]

theorem payloadField_reservedWord (op : BitVec 4) (p : BitVec 28) : payloadField (reservedWord op p) = p := by
  refine BitVec.eq_of_getLsbD_eq fun i hi => ?_
  have h32 : 4 + i < 32 := by omega
  have hi32 : i < 32 := by omega
  simp [-BitVec.getLsbD_eq_getElem, payloadField, reservedWord, BitVec.getLsbD_extractLsb', hi, h32, hi32]
end Sys2Proof.Laws
end

