-- ==== Sys2Proof/Laws/Operands.lean ====
section
/-! SUPPORT. The operand forms: the bytes SEND_BITS is given put exactly their field's bits on the wire
(spec/40_bit_transmitter.md rule R87), and the map index stays inside the map. -/

namespace Sys2Proof.Laws

open Sys2Proof.Machine

/-- The top bits of a field's byte are the field (R87). -/
theorem topBits_fieldByte (k x : Nat) (hk : k ≤ 8) : topBits (fieldByte k x) k = binBits k x := by
  refine List.map_congr_left fun i hi => ?_
  have h : i < k := List.mem_range.mp hi
  have h1 : 7 - i < 8 := by omega
  have h2 : 8 - k ≤ 7 - i := by omega
  have h3 : 7 - i - (8 - k) = k - 1 - i := by omega
  simp only [fieldByte, BitVec.getLsbD_ofNat, Nat.testBit_shiftLeft]
  simp [h1, h2, h3]

theorem binBits_one_bool (p : Bool) : binBits 1 p.toNat = [p] := by cases p <;> decide

@[simp] theorem topBits_length (v : Byte) (n : Nat) : (topBits v n).length = n := by simp [topBits]

theorem topBits_eq_nil (v : Byte) (n : Nat) : topBits v n = [] ↔ n = 0 := by simp [topBits]

theorem topBits_getLastD (v : Byte) (n : Nat) (d : Bool) (h : n ≠ 0) :
    (topBits v n).getLastD d = v.getLsbD (8 - n) := by
  obtain ⟨k, rfl⟩ := Nat.exists_eq_succ_of_ne_zero h
  simp [topBits, List.range_succ, List.getLastD_eq_getLast?]

@[simp] theorem binBits_length (k v : Nat) : (binBits k v).length = k := by simp [binBits]

theorem binBits_getLastD (k v : Nat) (d : Bool) (h : k ≠ 0) : (binBits k v).getLastD d = v.testBit 0 := by
  obtain ⟨n, rfl⟩ := Nat.exists_eq_succ_of_ne_zero h
  simp [binBits, List.range_succ, List.getLastD_eq_getLast?]

/-- `bin_k` sees only the low `k` bits (R9). -/
theorem binBits_mod (k v : Nat) : binBits k (v % 2 ^ k) = binBits k v := by
  refine List.map_congr_left fun i hi => ?_
  have h : i < k := List.mem_range.mp hi
  have : k - 1 - i < k := by omega
  simp [Nat.testBit_mod_two_pow, this]

theorem mapIndex_lt (cfg : Config) (h : cfg.Legal) (c : Byte) : mapIndex cfg c < cfg.mapSize := by
  unfold mapIndex
  split
  · assumption
  · exact h.2.2.2.2.1

theorem textAt_lt (cfg : Config) (text : List Byte) (j : Nat) (h : j < text.length) :
    textAt cfg text j = text[j] := by
  simp [textAt, h]

theorem textAt_ge (cfg : Config) (text : List Byte) (j : Nat) (h : text.length ≤ j) :
    textAt cfg text j = cfg.terminator := by
  simp [textAt, h]

end Sys2Proof.Laws
end

