-- ==== Sys2Proof/Laws/State.lean ====
section
/-! SUPPORT. One lemma per field per update: what each named update of State leaves and what it sets. -/

namespace Sys2Proof.Laws

open Sys2Proof.Machine

/-! ## mark -/

@[simp] theorem mark_rows (h : HazardMark) (s : State) : (mark h s).rows = s.rows := rfl
@[simp] theorem mark_lineCs (h : HazardMark) (s : State) : (mark h s).lineCs = s.lineCs := rfl
@[simp] theorem mark_lineWr (h : HazardMark) (s : State) : (mark h s).lineWr = s.lineWr := rfl
@[simp] theorem mark_lineData (h : HazardMark) (s : State) : (mark h s).lineData = s.lineData := rfl
@[simp] theorem mark_trace (h : HazardMark) (s : State) : (mark h s).trace = s.trace := rfl
@[simp] theorem mark_pinsReady (h : HazardMark) (s : State) : (mark h s).pinsReady = s.pinsReady := rfl
@[simp] theorem mark_oscSent (h : HazardMark) (s : State) : (mark h s).oscSent = s.oscSent := rfl
@[simp] theorem mark_biasSent (h : HazardMark) (s : State) : (mark h s).biasSent = s.biasSent := rfl
@[simp] theorem mark_haz (h : HazardMark) (s : State) : (mark h s).haz = addMark s.haz h := rfl
@[simp] theorem mark_refused (h : HazardMark) (s : State) : (mark h s).refused = s.refused := rfl
@[simp] theorem mark_cfg (h : HazardMark) (s : State) : (mark h s).cfg = s.cfg := rfl
@[simp] theorem mark_pending (h : HazardMark) (s : State) : (mark h s).pending = s.pending := rfl
@[simp] theorem mark_textPort (h : HazardMark) (s : State) : (mark h s).textPort = s.textPort := rfl
@[simp] theorem mark_draws (h : HazardMark) (s : State) : (mark h s).draws = s.draws := rfl

/-! ## refuse -/

@[simp] theorem refuse_rows (s : State) : (refuse s).rows = s.rows := rfl
@[simp] theorem refuse_lineCs (s : State) : (refuse s).lineCs = s.lineCs := rfl
@[simp] theorem refuse_lineWr (s : State) : (refuse s).lineWr = s.lineWr := rfl
@[simp] theorem refuse_lineData (s : State) : (refuse s).lineData = s.lineData := rfl
@[simp] theorem refuse_trace (s : State) : (refuse s).trace = s.trace := rfl
@[simp] theorem refuse_pinsReady (s : State) : (refuse s).pinsReady = s.pinsReady := rfl
@[simp] theorem refuse_oscSent (s : State) : (refuse s).oscSent = s.oscSent := rfl
@[simp] theorem refuse_biasSent (s : State) : (refuse s).biasSent = s.biasSent := rfl
@[simp] theorem refuse_haz (s : State) : (refuse s).haz = s.haz := rfl
@[simp] theorem refuse_refused (s : State) : (refuse s).refused = true := rfl
@[simp] theorem refuse_cfg (s : State) : (refuse s).cfg = s.cfg := rfl
@[simp] theorem refuse_pending (s : State) : (refuse s).pending = s.pending := rfl
@[simp] theorem refuse_textPort (s : State) : (refuse s).textPort = s.textPort := rfl
@[simp] theorem refuse_draws (s : State) : (refuse s).draws = s.draws := rfl

/-! ## record -/

@[simp] theorem record_rows (e : Event) (s : State) : (record e s).rows = s.rows := rfl
@[simp] theorem record_lineCs (e : Event) (s : State) : (record e s).lineCs = s.lineCs := rfl
@[simp] theorem record_lineWr (e : Event) (s : State) : (record e s).lineWr = s.lineWr := rfl
@[simp] theorem record_lineData (e : Event) (s : State) : (record e s).lineData = s.lineData := rfl
@[simp] theorem record_trace (e : Event) (s : State) : (record e s).trace = s.trace ++ [e] := rfl
@[simp] theorem record_pinsReady (e : Event) (s : State) : (record e s).pinsReady = s.pinsReady := rfl
@[simp] theorem record_oscSent (e : Event) (s : State) : (record e s).oscSent = s.oscSent := rfl
@[simp] theorem record_biasSent (e : Event) (s : State) : (record e s).biasSent = s.biasSent := rfl
@[simp] theorem record_haz (e : Event) (s : State) : (record e s).haz = s.haz := rfl
@[simp] theorem record_refused (e : Event) (s : State) : (record e s).refused = s.refused := rfl
@[simp] theorem record_cfg (e : Event) (s : State) : (record e s).cfg = s.cfg := rfl
@[simp] theorem record_pending (e : Event) (s : State) : (record e s).pending = s.pending := rfl
@[simp] theorem record_textPort (e : Event) (s : State) : (record e s).textPort = s.textPort := rfl
@[simp] theorem record_draws (e : Event) (s : State) : (record e s).draws = s.draws := rfl

/-! ## setLatch -/

@[simp] theorem setLatch_rows (l : Line) (b : Bool) (s : State) : (setLatch l b s).rows = s.rows := by cases l <;> rfl
@[simp] theorem setLatch_lineCs (l : Line) (b : Bool) (s : State) : (setLatch l b s).lineCs = if l = .cs then b else s.lineCs := by cases l <;> rfl
@[simp] theorem setLatch_lineWr (l : Line) (b : Bool) (s : State) : (setLatch l b s).lineWr = if l = .wr then b else s.lineWr := by cases l <;> rfl
@[simp] theorem setLatch_lineData (l : Line) (b : Bool) (s : State) : (setLatch l b s).lineData = if l = .data then b else s.lineData := by cases l <;> rfl
@[simp] theorem setLatch_trace (l : Line) (b : Bool) (s : State) : (setLatch l b s).trace = s.trace := by cases l <;> rfl
@[simp] theorem setLatch_pinsReady (l : Line) (b : Bool) (s : State) : (setLatch l b s).pinsReady = s.pinsReady := by cases l <;> rfl
@[simp] theorem setLatch_oscSent (l : Line) (b : Bool) (s : State) : (setLatch l b s).oscSent = s.oscSent := by cases l <;> rfl
@[simp] theorem setLatch_biasSent (l : Line) (b : Bool) (s : State) : (setLatch l b s).biasSent = s.biasSent := by cases l <;> rfl
@[simp] theorem setLatch_haz (l : Line) (b : Bool) (s : State) : (setLatch l b s).haz = s.haz := by cases l <;> rfl
@[simp] theorem setLatch_refused (l : Line) (b : Bool) (s : State) : (setLatch l b s).refused = s.refused := by cases l <;> rfl
@[simp] theorem setLatch_cfg (l : Line) (b : Bool) (s : State) : (setLatch l b s).cfg = s.cfg := by cases l <;> rfl
@[simp] theorem setLatch_pending (l : Line) (b : Bool) (s : State) : (setLatch l b s).pending = s.pending := by cases l <;> rfl
@[simp] theorem setLatch_textPort (l : Line) (b : Bool) (s : State) : (setLatch l b s).textPort = s.textPort := by cases l <;> rfl
@[simp] theorem setLatch_draws (l : Line) (b : Bool) (s : State) : (setLatch l b s).draws = s.draws := by cases l <;> rfl

/-! ## pinSetup -/

@[simp] theorem pinSetup_rows (s : State) : (pinSetup s).rows = s.rows := rfl
@[simp] theorem pinSetup_lineCs (s : State) : (pinSetup s).lineCs = true := rfl
@[simp] theorem pinSetup_lineWr (s : State) : (pinSetup s).lineWr = Config.freeLevel s.draws := rfl
@[simp] theorem pinSetup_lineData (s : State) : (pinSetup s).lineData = Config.freeLevel (s.draws + 1) := rfl
@[simp] theorem pinSetup_trace (s : State) : (pinSetup s).trace = s.trace ++ [.pinSetup] := rfl
@[simp] theorem pinSetup_pinsReady (s : State) : (pinSetup s).pinsReady = true := rfl
@[simp] theorem pinSetup_oscSent (s : State) : (pinSetup s).oscSent = s.oscSent := rfl
@[simp] theorem pinSetup_biasSent (s : State) : (pinSetup s).biasSent = s.biasSent := rfl
@[simp] theorem pinSetup_haz (s : State) : (pinSetup s).haz = s.haz := rfl
@[simp] theorem pinSetup_refused (s : State) : (pinSetup s).refused = s.refused := rfl
@[simp] theorem pinSetup_cfg (s : State) : (pinSetup s).cfg = s.cfg := rfl
@[simp] theorem pinSetup_pending (s : State) : (pinSetup s).pending = s.pending := rfl
@[simp] theorem pinSetup_textPort (s : State) : (pinSetup s).textPort = s.textPort := rfl
@[simp] theorem pinSetup_draws (s : State) : (pinSetup s).draws = s.draws + 2 := rfl

/-! ## setRow -/

@[simp] theorem setRow_rows (row : Int) (v : Byte) (s : State) : (setRow row v s).rows = if 0 ≤ row ∧ row < (s.cfg.nRows : Int) then s.rows.set row.toNat v else s.rows := by unfold setRow; split <;> rfl
@[simp] theorem setRow_lineCs (row : Int) (v : Byte) (s : State) : (setRow row v s).lineCs = s.lineCs := by unfold setRow; split <;> rfl
@[simp] theorem setRow_lineWr (row : Int) (v : Byte) (s : State) : (setRow row v s).lineWr = s.lineWr := by unfold setRow; split <;> rfl
@[simp] theorem setRow_lineData (row : Int) (v : Byte) (s : State) : (setRow row v s).lineData = s.lineData := by unfold setRow; split <;> rfl
@[simp] theorem setRow_trace (row : Int) (v : Byte) (s : State) : (setRow row v s).trace = s.trace := by unfold setRow; split <;> rfl
@[simp] theorem setRow_pinsReady (row : Int) (v : Byte) (s : State) : (setRow row v s).pinsReady = s.pinsReady := by unfold setRow; split <;> rfl
@[simp] theorem setRow_oscSent (row : Int) (v : Byte) (s : State) : (setRow row v s).oscSent = s.oscSent := by unfold setRow; split <;> rfl
@[simp] theorem setRow_biasSent (row : Int) (v : Byte) (s : State) : (setRow row v s).biasSent = s.biasSent := by unfold setRow; split <;> rfl
@[simp] theorem setRow_haz (row : Int) (v : Byte) (s : State) : (setRow row v s).haz = s.haz := by unfold setRow; split <;> rfl
@[simp] theorem setRow_refused (row : Int) (v : Byte) (s : State) : (setRow row v s).refused = s.refused := by unfold setRow; split <;> rfl
@[simp] theorem setRow_cfg (row : Int) (v : Byte) (s : State) : (setRow row v s).cfg = s.cfg := by unfold setRow; split <;> rfl
@[simp] theorem setRow_pending (row : Int) (v : Byte) (s : State) : (setRow row v s).pending = s.pending := by unfold setRow; split <;> rfl
@[simp] theorem setRow_textPort (row : Int) (v : Byte) (s : State) : (setRow row v s).textPort = s.textPort := by unfold setRow; split <;> rfl
@[simp] theorem setRow_draws (row : Int) (v : Byte) (s : State) : (setRow row v s).draws = s.draws := by unfold setRow; split <;> rfl

/-! ## load -/

@[simp] theorem load_rows (rs : List Request) (s : State) : (load rs s).rows = s.rows := rfl
@[simp] theorem load_lineCs (rs : List Request) (s : State) : (load rs s).lineCs = s.lineCs := rfl
@[simp] theorem load_lineWr (rs : List Request) (s : State) : (load rs s).lineWr = s.lineWr := rfl
@[simp] theorem load_lineData (rs : List Request) (s : State) : (load rs s).lineData = s.lineData := rfl
@[simp] theorem load_trace (rs : List Request) (s : State) : (load rs s).trace = s.trace := rfl
@[simp] theorem load_pinsReady (rs : List Request) (s : State) : (load rs s).pinsReady = s.pinsReady := rfl
@[simp] theorem load_oscSent (rs : List Request) (s : State) : (load rs s).oscSent = s.oscSent := rfl
@[simp] theorem load_biasSent (rs : List Request) (s : State) : (load rs s).biasSent = s.biasSent := rfl
@[simp] theorem load_haz (rs : List Request) (s : State) : (load rs s).haz = s.haz := rfl
@[simp] theorem load_refused (rs : List Request) (s : State) : (load rs s).refused = s.refused := rfl
@[simp] theorem load_cfg (rs : List Request) (s : State) : (load rs s).cfg = s.cfg := rfl
@[simp] theorem load_pending (rs : List Request) (s : State) : (load rs s).pending = s.pending ++ rs := rfl
@[simp] theorem load_textPort (rs : List Request) (s : State) : (load rs s).textPort = s.textPort := rfl
@[simp] theorem load_draws (rs : List Request) (s : State) : (load rs s).draws = s.draws := rfl

/-! ## loadNext -/

@[simp] theorem loadNext_rows (r : Request) (s : State) : (loadNext r s).rows = s.rows := rfl
@[simp] theorem loadNext_lineCs (r : Request) (s : State) : (loadNext r s).lineCs = s.lineCs := rfl
@[simp] theorem loadNext_lineWr (r : Request) (s : State) : (loadNext r s).lineWr = s.lineWr := rfl
@[simp] theorem loadNext_lineData (r : Request) (s : State) : (loadNext r s).lineData = s.lineData := rfl
@[simp] theorem loadNext_trace (r : Request) (s : State) : (loadNext r s).trace = s.trace := rfl
@[simp] theorem loadNext_pinsReady (r : Request) (s : State) : (loadNext r s).pinsReady = s.pinsReady := rfl
@[simp] theorem loadNext_oscSent (r : Request) (s : State) : (loadNext r s).oscSent = s.oscSent := rfl
@[simp] theorem loadNext_biasSent (r : Request) (s : State) : (loadNext r s).biasSent = s.biasSent := rfl
@[simp] theorem loadNext_haz (r : Request) (s : State) : (loadNext r s).haz = s.haz := rfl
@[simp] theorem loadNext_refused (r : Request) (s : State) : (loadNext r s).refused = s.refused := rfl
@[simp] theorem loadNext_cfg (r : Request) (s : State) : (loadNext r s).cfg = s.cfg := rfl
@[simp] theorem loadNext_pending (r : Request) (s : State) : (loadNext r s).pending = r :: s.pending := rfl
@[simp] theorem loadNext_textPort (r : Request) (s : State) : (loadNext r s).textPort = s.textPort := rfl
@[simp] theorem loadNext_draws (r : Request) (s : State) : (loadNext r s).draws = s.draws := rfl

end Sys2Proof.Laws
end

