-- ==== Sys2Proof/Laws/Ops.lean ====
section
/-! SUPPORT. One lemma per shared operation that says everything it does: the ghost updates, one pin call, SEND_BITS,
the two frames, a row write, and the fetch. -/

namespace Sys2Proof.Laws

open Sys2Proof.Machine

/-! ## Ghost state -/

theorem ghostDisplayOn_eq (c : Byte) (s : State) :
    ghostDisplayOn c s =
      { s with haz :=
          { preInitTransmit := s.haz.preInitTransmit
            onBeforeConfig := s.haz.onBeforeConfig || (c == s.cfg.cmdLcdOn && !(s.oscSent && s.biasSent)) } } := by
  have key : (s.haz.onBeforeConfig || (c == s.cfg.cmdLcdOn && !(s.oscSent && s.biasSent))) =
      if c = s.cfg.cmdLcdOn ∧ ¬(s.oscSent = true ∧ s.biasSent = true) then true else s.haz.onBeforeConfig := by
    by_cases hc : c = s.cfg.cmdLcdOn <;> cases s.oscSent <;> cases s.biasSent <;> simp [hc]
  rw [key]
  unfold ghostDisplayOn
  split <;> rfl

theorem ghostOsc_eq (c : Byte) (s : State) : ghostOsc c s = { s with oscSent := s.oscSent || c == s.cfg.cmdOsc } := by
  unfold ghostOsc; split <;> ext1 <;> simp_all

theorem ghostBias_eq (c : Byte) (s : State) :
    ghostBias c s = { s with biasSent := s.biasSent || c == s.cfg.cmdBias } := by
  unfold ghostBias; split <;> ext1 <;> simp_all

theorem ghostCommand_eq (c : Byte) (s : State) :
    ghostCommand c s =
      { s with
        oscSent := s.oscSent || c == s.cfg.cmdOsc
        biasSent := s.biasSent || c == s.cfg.cmdBias
        haz :=
          { preInitTransmit := s.haz.preInitTransmit
            onBeforeConfig := s.haz.onBeforeConfig || (c == s.cfg.cmdLcdOn && !(s.oscSent && s.biasSent)) } } := by
  rw [ghostCommand, ghostDisplayOn_eq, ghostOsc_eq, ghostBias_eq]

/-! ## Pins -/

theorem ghostPin_eq (s : State) : ghostPin s = { s with haz := hazAfterPins s } := by
  cases h : s.pinsReady <;> ext1 <;> simp [ghostPin, mark, addMark, hazAfterPins, h]

theorem pin_eq (l : Line) (b : Bool) (s : State) :
    pin l b s = setLatch l b { s with trace := s.trace ++ [.pin l b], haz := hazAfterPins s } := by
  rw [pin, ghostPin_eq]; cases l <;> rfl

theorem hazAfterPins_idem (s : State) (h : HazardSet) (hh : h = hazAfterPins s) :
    ({ h with preInitTransmit := h.preInitTransmit || !s.pinsReady } : HazardSet) = h := by
  subst hh; simp [hazAfterPins]

theorem clockBit_eq (s : State) (b : Bool) :
    clockBit s b = { s with trace := s.trace ++ bitEvents b, lineWr := true, lineData := b, haz := hazAfterPins s } := by
  ext1 <;> simp [clockBit, pin_eq, bitEvents, hazAfterPins]

theorem bodyEvents_append (a b : List Bool) : bodyEvents (a ++ b) = bodyEvents a ++ bodyEvents b :=
  List.flatMap_append

theorem foldl_clockBit_eq (bits : List Bool) (s : State) :
    bits.foldl clockBit s =
      { s with
        trace := s.trace ++ bodyEvents bits
        lineWr := if bits = [] then s.lineWr else true
        lineData := bits.getLastD s.lineData
        haz := if bits = [] then s.haz else hazAfterPins s } := by
  induction bits generalizing s with
  | nil => simp [bodyEvents]
  | cons b bits ih =>
    rw [List.foldl_cons, ih, clockBit_eq]
    simp [bodyEvents, hazAfterPins, -List.getLastD_eq_getLast?, List.getLastD_cons]

/-- SEND_BITS in one expression (R80, R86). -/
theorem sendBits_eq (v : Byte) (n : Nat) (s : State) (h : n ≤ 8) :
    sendBits v n s =
      { s with
        trace := s.trace ++ bodyEvents (topBits v n)
        lineWr := if n = 0 then s.lineWr else true
        lineData := (topBits v n).getLastD s.lineData
        haz := if n = 0 then s.haz else hazAfterPins s } := by
  simp only [sendBits, h, if_true, foldl_clockBit_eq, topBits_eq_nil]

theorem sendBits_refused (v : Byte) (n : Nat) (s : State) (h : 8 < n) : sendBits v n s = refuse s := by
  simp [sendBits, Nat.not_le.mpr h]

/-- One field in one expression (R87). -/
theorem sendField_eq (k x : Nat) (s : State) (h : k ≤ 8) :
    sendField k x s =
      { s with
        trace := s.trace ++ bodyEvents (binBits k x)
        lineWr := if k = 0 then s.lineWr else true
        lineData := (binBits k x).getLastD s.lineData
        haz := if k = 0 then s.haz else hazAfterPins s } := by
  rw [sendField, sendBits_eq _ _ _ h, topBits_fieldByte _ _ h]

/-! ## Frames -/

/-- A command frame in one expression (R91, R101, R168). -/
theorem commandFrame_eq (c : Byte) (p : Bool) (s : State) (h : s.cfg.FixedWire) :
    commandFrame c p s = afterCommandFrame c p s := by
  obtain ⟨-, ht, hc, hp, -, -⟩ := h
  simp only [commandFrame, ht, hc, hp, pin_eq, setLatch, sendField_eq, ghostCommand_eq, binBits_one_bool,
    Nat.reduceLeDiff]
  simp [afterCommandFrame, hazAfterPins, frameEvents, bodyEvents, commandBits, ht, hc, hp, binBits_one_bool]

/-- SEND_COMMAND in one expression (R91). -/
theorem sendCommand_eq (c : Byte) (s : State) (h : s.cfg.FixedWire) :
    sendCommand c s = afterCommandFrame c s.cfg.padBit s := commandFrame_eq c _ s h

/-- A data frame in one expression (R92, R101, R168). -/
theorem sendData_eq (a : Nat) (d : Byte) (m : Tag) (s : State) (h : s.cfg.FixedWire) :
    sendData a d m s = afterDataFrame m a d s := by
  obtain ⟨-, ht, -, -, ha, hd⟩ := h
  have hl (x : Bool) : (binBits 8 d.toNat).getLastD x = d.getLsbD 0 := binBits_getLastD 8 d.toNat x (by decide)
  simp only [sendData, ht, ha, hd, pin_eq, setLatch, sendField_eq, Nat.reduceLeDiff, hl]
  simp [afterDataFrame, hazAfterPins, frameEvents, bodyEvents, dataFrameBits, ht, ha, hd]

@[simp] theorem afterCommandFrame_cfg (c : Byte) (p : Bool) (s : State) : (afterCommandFrame c p s).cfg = s.cfg := rfl
@[simp] theorem afterDataFrame_cfg (m : Tag) (a : Nat) (d : Byte) (s : State) :
    (afterDataFrame m a d s).cfg = s.cfg := rfl

/-! ## Rows -/

theorem setRow_out_of_range (row : Int) (v : Byte) (s : State) (h : ¬(0 ≤ row ∧ row < (s.cfg.nRows : Int))) :
    setRow row v s = s := by simp [setRow, h]

theorem setRow_rows_length (row : Int) (v : Byte) (s : State) : (setRow row v s).rows.length = s.rows.length := by
  rw [setRow_rows]; split <;> simp

/-- Reading a row after a row write. -/
theorem readRow_setRow (row : Int) (v : Byte) (s : State) (hs : RowsWf s) (r : Nat) (hr : r < s.cfg.nRows) :
    readRow r (setRow row v s) = if row = (r : Int) then v else readRow r s := by
  have hlen : r < s.rows.length := hs ▸ hr
  simp only [readRow, setRow_rows, List.getD_eq_getElem?_getD]
  by_cases h : row = (r : Int)
  · subst h
    simp [hr, hlen]
  · by_cases h2 : 0 ≤ row ∧ row < (s.cfg.nRows : Int)
    · have : row.toNat ≠ r := by omega
      simp [h, h2, List.getElem?_set_ne this]
    · simp [h, h2]

/-! ## The host -/

/-- What taking the next request can give. -/
theorem fetch_cases (s : State) :
    (s.pending = [] ∧ fetch s = none) ∨
      ∃ r rest, s.pending = r :: rest ∧ fetch s = some (r.word, { s with pending := rest, textPort := r.text }) := by
  cases h : s.pending with
  | nil => left; simp [fetch, h]
  | cons r rest => right; exact ⟨r, rest, rfl, by simp [fetch, h]⟩

end Sys2Proof.Laws
end

