-- ==== Sys2Proof/Laws/Wire.lean ====
section
/-! SUPPORT. The wire: lengths of event lists, and what the receiver and the latches see of a frame. -/

namespace Sys2Proof.Laws

open Sys2Proof.Machine

theorem bodyEvents_cons (b : Bool) (bits : List Bool) : bodyEvents (b :: bits) = bitEvents b ++ bodyEvents bits := rfl

theorem bodyEvents_length (bits : List Bool) : (bodyEvents bits).length = 3 * bits.length := by
  induction bits with
  | nil => rfl
  | cons b bits ih => rw [bodyEvents_cons, List.length_append, ih]; simp [bitEvents]; omega

theorem frameEvents_length (bits : List Bool) : (frameEvents bits).length = 2 + 3 * bits.length := by
  simp [frameEvents, bodyEvents_length]; omega

theorem commandBits_length (cfg : Config) (h : cfg.FixedWire) (c : Byte) (p : Bool) :
    (commandBits cfg c p).length = 12 := by
  obtain ⟨-, ht, hc, hp, -, -⟩ := h
  simp [commandBits, ht, hc, hp]

theorem dataFrameBits_length (cfg : Config) (h : cfg.FixedWire) (m : Tag) (a : Nat) (d : Byte) :
    (dataFrameBits cfg m a d).length = 17 := by
  obtain ⟨-, ht, -, -, ha, hd⟩ := h
  simp [dataFrameBits, ht, ha, hd]

/-- Bits sent while `CS` is low are received in order (R85). -/
theorem received_bodyEvents (bits : List Bool) (d : Bool) (es : List Event) :
    received false d (bodyEvents bits ++ es) = bits ++ received false (bits.getLastD d) es := by
  induction bits generalizing d with
  | nil => rfl
  | cons b bits ih =>
    rw [bodyEvents_cons, List.append_assoc]
    simp [bitEvents, received, ih, -List.getLastD_eq_getLast?, List.getLastD_cons]

theorem received_frameEvents (bits : List Bool) (cs d : Bool) : received cs d (frameEvents bits) = bits := by
  simp [frameEvents, received, received_bodyEvents]

theorem receivedFrames_bodyEvents (bits acc : List Bool) (d : Bool) (es : List Event) :
    receivedFrames (some acc) d (bodyEvents bits ++ es) =
      receivedFrames (some (acc ++ bits)) (bits.getLastD d) es := by
  induction bits generalizing acc d with
  | nil => simp [bodyEvents]
  | cons b bits ih =>
    rw [bodyEvents_cons, List.append_assoc]
    simp [bitEvents, receivedFrames, ih, -List.getLastD_eq_getLast?, List.getLastD_cons]

/-- A frame between frames is received as itself (R68). -/
theorem receivedFrames_frameEvents (bits : List Bool) (d : Bool) (es : List Event) :
    receivedFrames none d (frameEvents bits ++ es) = bits :: receivedFrames none (bits.getLastD d) es := by
  simp [frameEvents, receivedFrames, receivedFrames_bodyEvents, -List.getLastD_eq_getLast?]

theorem receivedFrames_flatMap (fs : List (List Bool)) (d : Bool) :
    receivedFrames none d (fs.flatMap frameEvents) = fs := by
  induction fs generalizing d with
  | nil => rfl
  | cons f fs ih => rw [List.flatMap_cons, receivedFrames_frameEvents, ih]

theorem levelAfter_append (l : Line) (k : Option Bool) (a b : List Event) :
    levelAfter l k (a ++ b) = levelAfter l (levelAfter l k a) b := by
  induction a generalizing k with
  | nil => rfl
  | cons e a ih => cases e <;> simp [levelAfter, ih]

theorem levelAfter_cs_bodyEvents (bits : List Bool) (k : Option Bool) : levelAfter .cs k (bodyEvents bits) = k := by
  induction bits with
  | nil => rfl
  | cons b bits ih => rw [bodyEvents_cons, levelAfter_append]; simpa [bitEvents, levelAfter] using ih

theorem levelAfter_wr_bodyEvents (bits : List Bool) (k : Option Bool) :
    levelAfter .wr k (bodyEvents bits) = if bits = [] then k else some true := by
  induction bits generalizing k with
  | nil => rfl
  | cons b bits ih => rw [bodyEvents_cons, levelAfter_append, ih]; simp [bitEvents, levelAfter]

theorem levelAfter_data_bodyEvents (bits : List Bool) (k : Option Bool) :
    levelAfter .data k (bodyEvents bits) = if bits = [] then k else bits.getLast? := by
  induction bits generalizing k with
  | nil => rfl
  | cons b bits ih =>
    rw [bodyEvents_cons, levelAfter_append, ih]
    cases bits <;> simp [bitEvents, levelAfter]

/-- A frame with at least one bit leaves every line known (R101). -/
theorem levelAfter_frameEvents (l : Line) (k : Option Bool) (bits : List Bool) (h : bits ≠ []) :
    levelAfter l k (frameEvents bits) =
      match l with
      | .cs => some true
      | .wr => some true
      | .data => bits.getLast? := by
  simp only [frameEvents, levelAfter_append]
  cases l <;> simp [levelAfter, levelAfter_wr_bodyEvents, levelAfter_data_bodyEvents, h]

end Sys2Proof.Laws
end

