-- ==== Sys2Proof/Laws/Flush.lean ====
section
/-! SUPPORT. The operations of several frames: INIT as four command frames after the pin setup (spec/41_frame_encoder.md
rule R96), and FLUSH as one expression, the frames of the rows in order (spec/42_row_buffer.md rule R111). -/

namespace Sys2Proof.Laws

open Sys2Proof.Machine

/-- INIT, frame by frame (R96, R97). -/
theorem execInit_eq (s : State) (h : s.cfg.FixedWire) :
    execInit s = .next ([s.cfg.cmdSysEn, s.cfg.cmdOsc, s.cfg.cmdBias, s.cfg.cmdLcdOn].foldl
      (fun t c => afterCommandFrame c s.cfg.padBit t) (pinSetup s)) := by
  unfold execInit
  dsimp only
  rw [sendCommand_eq s.cfg.cmdSysEn (pinSetup s) h, sendCommand_eq s.cfg.cmdOsc _ (by exact h),
    sendCommand_eq s.cfg.cmdBias _ (by exact h), sendCommand_eq s.cfg.cmdLcdOn _ (by exact h)]
  rfl

/-- The frames FLUSH sends for the rows `rs` of `s`. -/
def rowFrames (s : State) (rs : List Nat) : List (List Bool) :=
  rs.map fun r => dataFrameBits s.cfg s.cfg.writeTag (2 * r) (readRow r s)

/-- Rows sent one after another, from a non-empty list of rows. -/
theorem foldl_flushRow_eq (rs : List Nat) (s : State) (hw : s.cfg.FixedWire) (h : rs ≠ []) :
    rs.foldl flushRow s =
      { s with
        trace := s.trace ++ (rowFrames s rs).flatMap frameEvents
        lineCs := true
        lineWr := true
        lineData := (readRow (rs.getLast h) s).getLsbD 0
        haz := hazAfterPins s } := by
  induction rs generalizing s with
  | nil => exact absurd rfl h
  | cons r rs ih =>
    rw [List.foldl_cons, flushRow, sendData_eq _ _ _ _ hw]
    by_cases h' : rs = []
    · subst h'
      simp [afterDataFrame, rowFrames]
    · rw [ih _ (by exact hw) h', List.getLast_cons h']
      simp [afterDataFrame, rowFrames, readRow, hazAfterPins]

end Sys2Proof.Laws
end

