-- ==== Sys2Proof/Laws/Layout.lean ====
section
/-! SUPPORT. SET_CHAR and the loop of SET_STRING write rows and nothing else (spec/44_string_layout.md rule R151). -/

namespace Sys2Proof.Laws

open Sys2Proof.Machine

theorem setRow_only_rows (row : Int) (v : Byte) (s : State) :
    setRow row v s = { s with rows := (setRow row v s).rows } := by unfold setRow; split <;> rfl

theorem setChar_only_rows (p : Int) (c : Byte) (dp : Bool) (s : State) :
    setChar p c dp s = { s with rows := (setChar p c dp s).rows } := setRow_only_rows _ _ _

/-- The loop changes rows only, and keeps their number. -/
theorem layout_only_rows (cfg : Config) (text : List Byte) (numeric : Bool) (fuel slot j : Nat) (s : State) :
    ∃ rows, rows.length = s.rows.length ∧ layout cfg text numeric fuel slot j s = { s with rows := rows } := by
  induction fuel generalizing slot j s with
  | zero => exact ⟨s.rows, rfl, rfl⟩
  | succ fuel ih =>
    have step (slot' p c dp) : ∃ rows, rows.length = s.rows.length ∧
        layout cfg text numeric fuel slot' (j + 1) (setChar p c dp s) = { s with rows := rows } := by
      obtain ⟨rows, hl, he⟩ := ih slot' (j + 1) (setChar p c dp s)
      refine ⟨rows, hl.trans (setRow_rows_length _ _ _), ?_⟩
      rw [he, setChar_only_rows]
    unfold layout
    dsimp only
    split_ifs <;> first | exact step _ _ _ _ | exact ⟨s.rows, rfl, rfl⟩

end Sys2Proof.Laws
end

