-- ==== Sys2Proof/Laws/PerInstr.lean ====
section
/-! SUPPORT. Per instruction: the `OP` of its words is the one spec/30_encoding.md rule R61 gives it. -/

namespace Sys2Proof.Laws

/-- The `OP` values of an operation (R61, R62); none for an operation with no host encoding (R73). -/
def opcodes : Instr → List (BitVec 4)
  | .init => [0x1#4]
  | .setRow _ _ => [0x2#4]
  | .setChar _ _ _ => [0x3#4]
  | .setString _ _ => [0x4#4]
  | .flush => [0x5#4]
  | .setOn => [0x6#4]
  | .setOff => [0x7#4]
  | .sendCommand _ => [0x8#4]
  | .sendData _ _ _ => [0x9#4]
  | .reservedOp0 _ => [0x0#4]
  | .reservedOpAB _ _ => [0xA#4, 0xB#4]
  | .reservedOpCF _ _ => [0xC#4, 0xD#4, 0xE#4, 0xF#4]
  | .sendBits _ _ => []
  | .wCmd _ _ => []
  | .wWr _ _ _ => []
  | .cmdSysEn _ => []
  | .cmdOsc _ => []
  | .cmdBias _ => []
  | .cmdLcdOn _ => []
  | .cmdLcdOff _ => []

end Sys2Proof.Laws

namespace Sys2Proof.Laws.OpcodeOfWord

/-- Every word of the operation carries one of its `OP` values, and an operation without one has no word. -/
def Statement (i : Instr) : Prop :=
  (∀ w, encode i = some w → opField w ∈ opcodes i) ∧ (opcodes i = [] → encode i = none)

/-- The statement, for an operation whose word carries the `OP` `op`. -/
theorem of_word (i : Instr) (w : Word) (op : BitVec 4) (he : encode i = some w) (hw : opField w = op)
    (hm : op ∈ opcodes i) : Statement i := by
  refine ⟨fun w' h => ?_, fun h => ?_⟩
  · rw [he] at h
    cases h
    exact hw ▸ hm
  · rw [h] at hm
    cases hm

/-- The statement, for an operation with no host encoding. -/
theorem of_none (i : Instr) (he : encode i = none) : Statement i :=
  ⟨fun w h => absurd (he.symm.trans h) (by simp), fun _ => he⟩

theorem init : Statement .init :=
  of_word _ _ _ rfl (opField_formH _ _ _ _ _) (by simp [opcodes])

theorem setRow (row : Int) (data : Byte) : Statement (.setRow row data) :=
  of_word _ _ _ rfl (opField_formH _ _ _ _ _) (by simp [opcodes])

theorem setChar (p : Int) (c : Byte) (dp : Bool) : Statement (.setChar p c dp) :=
  of_word _ _ _ rfl (opField_formH _ _ _ _ _) (by simp [opcodes])

theorem setString (start : Int) (num : Bool) : Statement (.setString start num) :=
  of_word _ _ _ rfl (opField_formH _ _ _ _ _) (by simp [opcodes])

theorem flush : Statement .flush :=
  of_word _ _ _ rfl (opField_formH _ _ _ _ _) (by simp [opcodes])

theorem setOn : Statement .setOn :=
  of_word _ _ _ rfl (opField_formH _ _ _ _ _) (by simp [opcodes])

theorem setOff : Statement .setOff :=
  of_word _ _ _ rfl (opField_formH _ _ _ _ _) (by simp [opcodes])

theorem sendCommand (cmd : Byte) : Statement (.sendCommand cmd) :=
  of_word _ _ _ rfl (opField_formH _ _ _ _ _) (by simp [opcodes])

theorem sendData (a : Nat) (v : Byte) (m : Tag) : Statement (.sendData a v m) :=
  of_word _ _ _ rfl (opField_formH _ _ _ _ _) (by simp [opcodes])

theorem reservedOp0 (payload : BitVec 28) : Statement (.reservedOp0 payload) :=
  of_word _ _ _ rfl (opField_reservedWord _ _) (by simp [opcodes])

theorem reservedOpAB (low : BitVec 1) (payload : BitVec 28) : Statement (.reservedOpAB low payload) :=
  have h : ∀ low : BitVec 1, 0b101#3 ++ low ∈ [0xA#4, 0xB#4] := by decide
  of_word _ _ _ rfl (opField_reservedWord _ _) (h low)

theorem reservedOpCF (low : BitVec 2) (payload : BitVec 28) : Statement (.reservedOpCF low payload) :=
  have h : ∀ low : BitVec 2, 0b11#2 ++ low ∈ [0xC#4, 0xD#4, 0xE#4, 0xF#4] := by decide
  of_word _ _ _ rfl (opField_reservedWord _ _) (h low)

theorem sendBits (v : Byte) (n : Nat) : Statement (.sendBits v n) :=
  of_none _ rfl

theorem wCmd (c : Byte) (p : Bool) : Statement (.wCmd c p) :=
  of_none _ rfl

theorem wWr (m : Tag) (a : BitVec 6) (d : Byte) : Statement (.wWr m a d) :=
  of_none _ rfl

theorem cmdSysEn (p : Bool) : Statement (.cmdSysEn p) :=
  of_none _ rfl

theorem cmdOsc (p : Bool) : Statement (.cmdOsc p) :=
  of_none _ rfl

theorem cmdBias (p : Bool) : Statement (.cmdBias p) :=
  of_none _ rfl

theorem cmdLcdOn (p : Bool) : Statement (.cmdLcdOn p) :=
  of_none _ rfl

theorem cmdLcdOff (p : Bool) : Statement (.cmdLcdOff p) :=
  of_none _ rfl

end Sys2Proof.Laws.OpcodeOfWord
end

