-- ==== Sys2Proof/Laws/Step.lean ====
section
/-! SUPPORT. What one operation and one step can do, said once: every operation of the host surface is a composition of
five primitive effects, so a property each of them keeps is kept by every step. -/

namespace Sys2Proof.Laws

open Sys2Proof.Machine

/-- The primitive effects of the block and their compositions. -/
inductive Effect : State → State → Prop where
  /-- No effect. -/
  | refl (s : State) : Effect s s
  /-- A row write (R110). -/
  | row (row : Int) (v : Byte) (s : State) : Effect s (setRow row v s)
  /-- A refusal (R162). -/
  | refuse (s : State) : Effect s (refuse s)
  /-- The pin setup (R98). -/
  | setup (s : State) : Effect s (pinSetup s)
  /-- A command frame with the block's padding bit (R91). -/
  | command (c : Byte) (s : State) : Effect s (afterCommandFrame c s.cfg.padBit s)
  /-- A data frame (R92). -/
  | data (m : Tag) (a : Nat) (d : Byte) (s : State) : Effect s (afterDataFrame m a d s)
  /-- One effect after another. -/
  | trans {s t u : State} : Effect s t → Effect t u → Effect s u

/-- No effect changes the configuration (R26). -/
theorem Effect.cfg {s t : State} (e : Effect s t) : t.cfg = s.cfg := by
  induction e with
  | row _ _ _ => exact setRow_cfg _ _ _
  | trans _ _ ih₁ ih₂ => exact ih₂.trans ih₁
  | _ => rfl

/-- One effect after another, the second of which needs the wire values of R6. -/
theorem Effect.next {s t u : State} (h : s.cfg.FixedWire) (e : Effect s t) (k : t.cfg.FixedWire → Effect t u) :
    Effect s u := .trans e (k (e.cfg ▸ h))

theorem effect_sendCommand (c : Byte) (s : State) (h : s.cfg.FixedWire) : Effect s (sendCommand c s) := by
  rw [sendCommand_eq _ _ h]; exact .command c s

theorem effect_sendData (a : Nat) (d : Byte) (m : Tag) (s : State) (h : s.cfg.FixedWire) :
    Effect s (sendData a d m s) := by
  rw [sendData_eq _ _ _ _ h]; exact .data m a d s

theorem effect_foldl_flushRow (rs : List Nat) (s : State) (h : s.cfg.FixedWire) : Effect s (rs.foldl flushRow s) := by
  induction rs generalizing s with
  | nil => exact .refl s
  | cons r rs ih => rw [List.foldl_cons]; exact .next h (effect_sendData _ _ _ s h) (ih _)

theorem effect_layout (cfg : Config) (text : List Byte) (numeric : Bool) (fuel slot j : Nat) (s : State) :
    Effect s (layout cfg text numeric fuel slot j s) := by
  induction fuel generalizing slot j s with
  | zero => exact .refl s
  | succ fuel ih =>
    unfold layout
    dsimp only
    split_ifs <;> first | exact .trans (.row _ _ s) (ih _ _ _) | exact .refl s

/-- Every operation of the host surface completes, with a composition of the primitive effects. -/
theorem exec_effect (i : Instr) (s : State) (hw : s.cfg.FixedWire) (h : i.onHostSurface = true) :
    ∃ t, exec i s = .next t ∧ Effect s t := by
  cases i with
  | init =>
    refine ⟨_, rfl, ?_⟩
    refine .next hw (.setup s) fun hw => .next hw (effect_sendCommand s.cfg.cmdSysEn _ hw) fun hw => ?_
    refine .next hw (effect_sendCommand s.cfg.cmdOsc _ hw) fun hw => ?_
    exact .next hw (effect_sendCommand s.cfg.cmdBias _ hw) (effect_sendCommand _ _)
  | setRow row v => exact ⟨_, rfl, .row row v s⟩
  | setChar p c dp => exact ⟨_, rfl, .row _ _ s⟩
  | setString start num => exact ⟨_, rfl, effect_layout _ _ _ _ _ _ s⟩
  | flush => exact ⟨_, rfl, effect_foldl_flushRow _ s hw⟩
  | setOn => exact ⟨_, rfl, effect_sendCommand _ s hw⟩
  | setOff => exact ⟨_, rfl, effect_sendCommand _ s hw⟩
  | sendCommand c => exact ⟨_, rfl, effect_sendCommand c s hw⟩
  | sendData a d m => exact ⟨_, rfl, effect_sendData a d m s hw⟩
  | reservedOp0 _ => exact ⟨_, rfl, .refuse s⟩
  | reservedOpAB _ _ => exact ⟨_, rfl, .refuse s⟩
  | reservedOpCF _ _ => exact ⟨_, rfl, .refuse s⟩
  | sendBits _ _ => cases h
  | wCmd _ _ => cases h
  | wWr _ _ _ => cases h
  | cmdSysEn _ => cases h
  | cmdOsc _ => cases h
  | cmdBias _ => cases h
  | cmdLcdOn _ => cases h
  | cmdLcdOff _ => cases h

/-- What one step can do: wait with nothing pending, or take the first request and have its operation's effect. -/
theorem step_cases (s : State) (hw : s.cfg.FixedWire) :
    (s.pending = [] ∧ step s = .next s) ∨
      ∃ r rest t, s.pending = r :: rest ∧ step s = .next t ∧
        Effect { s with pending := rest, textPort := r.text } t := by
  rcases fetch_cases s with ⟨hp, hf⟩ | ⟨r, rest, hp, hf⟩
  · exact .inl ⟨hp, by simp [step, hf]⟩
  · right
    cases hd : decode r.word with
    | ok i =>
      obtain ⟨t, ht, he⟩ := exec_effect i { s with pending := rest, textPort := r.text } hw (decode_onHostSurface _ _ hd)
      exact ⟨r, rest, t, hp, by simp [step, hf, hd, ht], he⟩
    | error e => exact ⟨r, rest, _, hp, by simp [step, hf, hd, rejectWord], .refuse _⟩

end Sys2Proof.Laws
end

