-- ==== Sys2Proof/Tests/Slice0.lean ====
section
/-! SUPPORT. The model's own tests. Every expected value is taken from spec/95_test_vectors.md or worked out by hand from
the rule named; then the witnesses that the statements' hypotheses can be met. -/

namespace Sys2Proof.Tests

open Sys2Proof.Machine

/-! ## Helpers -/

/-- The state after an operation. -/
def after (i : Instr) (s : State) : State :=
  match exec i s with
  | .next t => t
  | .fault r => nomatch r
  | .refused _ => s

/-- The state after one step. -/
def stepped (s : State) : State :=
  match step s with
  | .next t => t
  | .fault r => nomatch r
  | .refused _ => s

theorem answers (i : Instr) (s : State) (hw : s.cfg.FixedWire) (h : i.onHostSurface = true) :
    ∃ t, exec i s = .next t ∧ t.cfg = s.cfg :=
  (Laws.exec_effect i s hw h).imp fun _ h => ⟨h.1, h.2.cfg⟩

theorem execAll_answers (is : List Instr) (h : ∀ i ∈ is, i.onHostSurface = true) (s : State)
    (hw : s.cfg.FixedWire) : ∃ t, execAll is s = .next t := by
  induction is generalizing s with
  | nil => exact ⟨s, rfl⟩
  | cons i is ih =>
    obtain ⟨t, ht, hc⟩ := answers i s hw (h i (by simp))
    simpa [execAll, ht] using ih (fun j hj => h j (by simp [hj])) t (hc ▸ hw)

theorem step_answers (s : State) (hw : s.cfg.FixedWire) : ∃ t, step s = .next t ∧ t.cfg = s.cfg := by
  rcases Laws.step_cases s hw with ⟨_, h⟩ | ⟨_, _, t, _, h, he⟩
  · exact ⟨s, h, rfl⟩
  · exact ⟨t, h, he.cfg⟩

/-- The reset state with a text on the port. -/
def withText (text : List Byte) : State := { State.reset with textPort := text }

/-- The reset state of a block with `n` rows, all 0x00. -/
def withRows (n : Nat) : State :=
  { State.reset with cfg := { Config.tc with nRows := n }, rows := List.replicate n 0x00#8 }

/-- The reset state with one request pending. -/
def withRequest (w : Word) : State := loadNext { word := w, text := [] } State.reset

/-- Positions 0 to 5. -/
def positions (s : State) : List Byte := s.rows.take 6

/-- A bit string written as a number of `k` bits. -/
def bits (k v : Nat) : List Bool := binBits k v

/-! ## Well-formedness: one ill-formed term for each check -/

theorem test_wf_setRow_negative : (Instr.setRow (-1) 0x44#8).wellFormed = false := by decide
theorem test_wf_setRow_wide : (Instr.setRow 256 0x44#8).wellFormed = false := by decide
theorem test_wf_setChar_wide : (Instr.setChar 256 0x31#8 true).wellFormed = false := by decide
theorem test_wf_setString_negative : (Instr.setString (-1) true).wellFormed = false := by decide
theorem test_wf_sendData_wide : (Instr.sendData 256 0x01#8 5#3).wellFormed = false := by decide
theorem test_wf_sendBits_nine : (Instr.sendBits 0xA5#8 9).wellFormed = false := by decide
theorem test_wf_accepts : (Instr.setRow 255 0x44#8).wellFormed = true ∧ (Instr.sendData 255 0x01#8 5#3).wellFormed = true ∧
    (Instr.sendBits 0xA5#8 8).wellFormed = true := by decide

/-! ## Decoding: words written out from R60 and R63 (spec/95_test_vectors.md V6) -/

theorem test_decode_init : decode 0x00000001#32 = .ok .init := by decide
theorem test_decode_setRow : decode 0x005A0302#32 = .ok (.setRow 3 0x5A#8) := by decide
theorem test_decode_setChar : decode 0x00310513#32 = .ok (.setChar 5 0x31#8 true) := by decide
theorem test_decode_setString : decode 0x00000304#32 = .ok (.setString 3 false) := by decide
theorem test_decode_flush : decode 0x00000005#32 = .ok .flush := by decide
theorem test_decode_setOn : decode 0x00000006#32 = .ok .setOn := by decide
theorem test_decode_setOff : decode 0x00000007#32 = .ok .setOff := by decide
theorem test_decode_sendCommand : decode 0x00000308#32 = .ok (.sendCommand 0x03#8) := by decide
theorem test_decode_sendData : decode 0x005A06C9#32 = .ok (.sendData 6 0x5A#8 6#3) := by decide
theorem test_decode_reservedOp0 : decode 0xFFFFFFF0#32 = .ok (.reservedOp0 0xFFFFFFF#28) := by decide
theorem test_decode_reservedOpAB : decode 0x0000001B#32 = .ok (.reservedOpAB 1#1 1#28) := by decide
theorem test_decode_reservedOpCF : decode 0x0000002E#32 = .ok (.reservedOpCF 2#2 2#28) := by decide
theorem test_decode_refuses_bit24 : decode 0x01000005#32 = .error (.reservedBits 5#4) := by decide
theorem test_decode_refuses_setString_b : decode 0x00010004#32 = .error (.reservedBits 4#4) := by decide
theorem test_decode_refuses_sendCommand_m : decode 0x00000328#32 = .error (.reservedBits 8#4) := by decide
theorem test_encode_setChar : encode (.setChar 2 0xC8#8 true) = some 0x00C80213#32 := by decide
theorem test_decodeTableWord : decodeTableWord 32 0x009647A9 = some (.sendData 0x47 0x96#8 5#3) := by decide

/-! ## Wire frames: the strings of R66, R67, R69 and V2 -/

theorem test_wire_wCmd : decodeWire Config.tc (bits 12 0b100000000110) = some (.wCmd 0x03#8 false) := by decide
theorem test_wire_wWr : decodeWire Config.tc (bits 17 0b10100011001011010) = some (.wWr 5#3 6#6 0x5A#8) := by decide
theorem test_wire_command_tag_in_17_bits : decodeWire Config.tc (bits 17 0b10000011001011010) = some (.wWr 4#3 6#6 0x5A#8) := by
  decide
theorem test_wire_refuses_other_length : decodeWire Config.tc (bits 13 0b1000000001100) = none := by decide
theorem test_wire_cmdSysEn : decodeNamedCommand Config.tc (bits 12 0b100000000010) = some (.cmdSysEn false) := by decide
theorem test_wire_cmdOsc : decodeNamedCommand Config.tc (bits 12 0b100000110000) = some (.cmdOsc false) := by decide
theorem test_wire_cmdBias : decodeNamedCommand Config.tc (bits 12 0b100001010011) = some (.cmdBias true) := by decide
theorem test_wire_cmdLcdOn : decodeNamedCommand Config.tc (bits 12 0b100000000110) = some (.cmdLcdOn false) := by decide
theorem test_wire_cmdLcdOff : decodeNamedCommand Config.tc (bits 12 0b100000000100) = some (.cmdLcdOff false) := by decide

/-! ## Operations, one each or two, on the `TC` reset state -/

/-- V1.2: `SendBits(0xA5, 3)` sends 1 0 1. -/
theorem test_sendBits_three : (after (.sendBits 0xA5#8 3) State.reset).trace =
    [.pin .wr false, .pin .data true, .pin .wr true, .pin .wr false, .pin .data false, .pin .wr true,
      .pin .wr false, .pin .data true, .pin .wr true] := by decide

/-- V1.8: a count of 9 is refused. -/
theorem test_sendBits_nine : (after (.sendBits 0xA5#8 9) State.reset).refused = true ∧
    (after (.sendBits 0xA5#8 9) State.reset).trace = [] := by decide

/-- W5: `SEND_COMMAND 0x03` is received as `100 00000011 0`. -/
theorem test_sendCommand : receivedFrames none false (after (.sendCommand 0x03#8) State.reset).trace =
    [bits 12 0b100000000110] := by decide +kernel

/-- V7.4: the oscillator code is noted. -/
theorem test_sendCommand_osc : (after (.sendCommand 0x18#8) State.reset).oscSent = true := by decide +kernel

/-- V2.8: address 0x47 wraps to 7. -/
theorem test_sendData_wraps : receivedFrames none false (after (.sendData 0x47 0x96#8 5#3) State.reset).trace =
    [bits 17 0b10100011110010110] := by decide +kernel

/-- R101: the lines after a data frame whose value ends in 1. -/
theorem test_sendData_lines : (after (.sendData 255 0x01#8 5#3) State.reset).lineCs = true ∧
    (after (.sendData 255 0x01#8 5#3) State.reset).lineData = true := by decide +kernel

/-- V2.12: INIT from reset. -/
theorem test_init_frames : receivedFrames none false (after .init State.reset).trace =
    [bits 12 0b100000000010, bits 12 0b100000110000, bits 12 0b100001010010, bits 12 0b100000000110] := by
  decide +kernel

/-- V2.12, V7.1: 153 events and no mark. -/
theorem test_init_events : (after .init State.reset).trace.length = 153 ∧
    (after .init State.reset).haz = HazardSet.empty := by decide +kernel

/-- V3.2, V3.3: the last row is written, the row after it is not. -/
theorem test_setRow_edges : readRow 15 (after (.setRow 15 0x22#8) State.reset) = 0x22#8 ∧
    after (.setRow 16 0x33#8) State.reset = State.reset := by decide +kernel

/-- V3.4: a negative row changes nothing. -/
theorem test_setRow_negative : after (.setRow (-1) 0x44#8) State.reset = State.reset := by decide +kernel

/-- V3.12: FLUSH with one row. -/
theorem test_flush_one_row : (after .flush (after (.setRow 0 0x9C#8) (withRows 1))).trace =
    frameEvents (bits 17 0b10100000010011100) := by decide +kernel

/-- V3.8: with three rows, row 1 goes to address 2. -/
theorem test_flush_addresses :
    (receivedFrames none false (after .flush (after (.setRow 1 0x01#8) (withRows 3))).trace)[1]? =
      some (bits 17 0b10100001000000001) := by decide +kernel

/-- V7.2: SET_ON before INIT sets both marks. -/
theorem test_setOn_marks : (after .setOn State.reset).haz = { preInitTransmit := true, onBeforeConfig := true } := by
  decide +kernel

/-- V7.3, V3.11: SET_OFF before INIT sets one mark and sends its code. -/
theorem test_setOff : (after .setOff State.reset).haz = { preInitTransmit := true, onBeforeConfig := false } ∧
    receivedFrames none false (after .setOff State.reset).trace = [bits 12 0b100000000100] := by decide +kernel

/-- V4.1, V4.10: the glyph with its decimal point; the old row plays no part. -/
theorem test_setChar : readRow 3 (after (.setChar 3 0x41#8 true) (after (.setRow 3 0x7F#8) State.reset)) = 0xC1#8 := by
  decide +kernel

/-- V4.3, V4.4: a code at `MAP_SIZE` and above takes the blank glyph. -/
theorem test_setChar_fallback : readRow 0 (after (.setChar 0 127#8 false) State.reset) = 0x00#8 ∧
    readRow 0 (after (.setChar 0 0xFF#8 true) State.reset) = 0x80#8 := by decide +kernel

/-- V5.6: "1..5" in numeric mode. -/
theorem test_setString_dots : positions (after (.setString 0 true) (withText [0x31#8, 0x2E#8, 0x2E#8, 0x35#8])) =
    [0x00#8, 0x00#8, 0x00#8, 0x00#8, 0x35#8, 0xAE#8] := by decide +kernel

/-- V5.3: "123456." in numeric mode; the last '.' is not read. -/
theorem test_setString_full :
    positions (after (.setString 0 true) (withText [0x31#8, 0x32#8, 0x33#8, 0x34#8, 0x35#8, 0x36#8, 0x2E#8])) =
      [0x36#8, 0x35#8, 0x34#8, 0x33#8, 0x32#8, 0x31#8] := by decide +kernel

/-- R140, R141 with two slots, ',' for '.' and '#' for '0': ",7" in numeric mode fills positions 1 and 0 and no other. -/
theorem test_setString_configuration :
    positions (after (.setString 0 true)
      { withText [0x2C#8, 0x37#8, 0x38#8] with
        cfg := { Config.tc with slots := 2, dpChar := 0x2C#8, zeroChar := 0x23#8 } }) =
      [0x37#8, 0xA3#8, 0x00#8, 0x00#8, 0x00#8, 0x00#8] := by decide +kernel

/-- V6.11, V6.12: the reserved requests. -/
theorem test_reserved : (after (.reservedOp0 0#28) State.reset).refused = true ∧
    (after (.reservedOpAB 0#1 0#28) State.reset).refused = true ∧
    (after (.reservedOpCF 3#2 0#28) State.reset).refused = true := by decide

/-- R66: the wire row W-CMD with the padding bit 1 (V2.4). -/
theorem test_wCmd : receivedFrames none false (after (.wCmd 0x03#8 true) State.reset).trace =
    [bits 12 0b100000000111] := by decide +kernel

/-- R67: the wire row W-WR (V2.11). -/
theorem test_wWr : receivedFrames none false (after (.wWr 5#3 63#6 0x01#8) State.reset).trace =
    [bits 17 0b10111111100000001] := by decide +kernel

/-- R69: the five named frames with the padding bit 0. -/
theorem test_named_commands :
    [Instr.cmdSysEn false, .cmdOsc false, .cmdBias false, .cmdLcdOn false, .cmdLcdOff false].map
      (fun i => receivedFrames none false (after i State.reset).trace) =
      [[bits 12 0b100000000010], [bits 12 0b100000110000], [bits 12 0b100001010010], [bits 12 0b100000000110],
        [bits 12 0b100000000100]] := by decide +kernel

/-! ## Steps -/

/-- P1, request 2: the first step after reset runs the request. -/
theorem test_step_setRow : readRow 3 (stepped (State.reset.withFetchWord 32 0x005A0302)) = 0x5A#8 := by decide +kernel

/-- P5, request 2: a reserved word sets `REFUSED` and the run goes on. -/
theorem test_step_refused : (stepped (withRequest 0x0000000B#32)).refused = true ∧
    (stepped (withRequest 0x00000101#32)).refused = true ∧ (stepped (withRequest 0x00000101#32)).trace = [] := by
  decide +kernel

/-- R180: with nothing pending the block waits. -/
theorem test_step_waits : stepped State.reset = State.reset := by decide +kernel

/-! ## Witnesses: the hypotheses of each statement that has some can be met -/

theorem witness_DecodeOfEncodeIsTheInstruction :
    (Instr.setRow 255 0xFF#8).wellFormed = true ∧ (Instr.setRow 255 0xFF#8).onHostSurface = true := by decide

theorem witness_DecodedWordEncodesBack : decode 0x00FFFF02#32 = .ok (.setRow 255 0xFF#8) := by decide

theorem witness_InternalOperationsHaveNoHostWord : (Instr.sendBits 0xA5#8 8).onHostSurface = false := by decide

theorem witness_ReservedOpsAreRefused :
    opField 0xFFFFFFF0#32 = 0x0#4 ∧ 0xA ≤ (opField 0x0000000A#32).toNat ∧ 0xA ≤ (opField 0x0000000F#32).toNat := by
  decide

theorem witness_ReservedBitsAreRefused :
    opField 0x00FFFF02#32 = 0x2#4 ∧ 0x00FFFF02#32 &&& 0xFF0000FF#32 = 0x00000002#32 ∧
      opField 0x01000002#32 = 0x2#4 ∧ 0x01000002#32 &&& 0xFF0000FF#32 ≠ 0x00000002#32 := by decide

/-- The one hypothesis of WireRowsEmitTheirFrames, WireFramesReadBack, SendCommandEmitsOneFrame,
NamedCommandsEmitTheirFrames, SendDataEmitsOneFrame, WireAddressIsTheAddressModulo64, FramesAreReceivedBitExact,
FrameEventCountsAndLines, InitIsReceivedAsFourCommands and OperationsAppendTheListedEvents. -/
theorem witness_FrameStatements : State.reset.cfg.FixedWire := by decide

theorem witness_NamedCommandFramesReadBack :
    Config.tc.FixedWire ∧ Config.tc.DistinctCodes ∧ Instr.cmdSysEn true ∈
      [Instr.cmdSysEn true, .cmdOsc true, .cmdBias true, .cmdLcdOn true, .cmdLcdOff true] := by decide

theorem witness_StepRunsTheNextRequest :
    (withRequest 0x00000005#32).pending = [{ word := 0x00000005#32, text := [] }] ∧
      decode 0x00000005#32 = .ok .flush ∧ decode 0x01000005#32 = .error (.reservedBits 5#4) ∧
      State.reset.pending = [] ∧ decodeTableWord 32 0x00000005 = some .flush := by decide

theorem witness_RunsServeEveryRequestInOrder :
    (withRequest 0x00000001#32).cfg.FixedWire ∧
    (load [{ word := 0x0000000B#32, text := [] }] (withRequest 0x00000001#32)).pending =
      [{ word := 0x00000001#32, text := [] }] ++ [{ word := 0x0000000B#32, text := [] }] := by decide

theorem witness_SendBits : (0 : Nat) ≤ 8 ∧ (8 : Nat) ≤ 8 ∧ (8 : Nat) < 9 := by decide

theorem witness_InitBringsTheChipUp : State.reset.cfg.FixedWire ∧ State.reset.cfg.DistinctCodes := by decide

theorem witness_SetRowWritesItsRowOrNothing :
    ((0 : Int) ≤ 15 ∧ (15 : Int) < (State.reset.cfg.nRows : Int)) ∧
      ¬((0 : Int) ≤ 16 ∧ (16 : Int) < (State.reset.cfg.nRows : Int)) ∧
      ¬((0 : Int) ≤ -1 ∧ (-1 : Int) < (State.reset.cfg.nRows : Int)) := by decide

theorem witness_SetRowReadsBack : RowsWf State.reset ∧ RowsWf (withRows 1) := by decide

theorem witness_RepeatedRequests :
    (∃ t, exec (.setRow 3 0x5A#8) State.reset = .next t) ∧ State.reset.cfg.Legal ∧
      (∀ i ∈ [Instr.setOff, .flush], writesRows i = false) ∧
      ∃ v, execAll [Instr.setOff, .flush] State.reset = .next v :=
  ⟨⟨_, rfl⟩, by decide +kernel, by decide, execAll_answers _ (by decide) _ (by decide)⟩

theorem witness_FlushSendsEveryRow : State.reset.cfg.Legal ∧ (withRows 1).cfg.Legal := by decide +kernel

theorem witness_FlushIsReceivedRowByRow :
    RowsWf State.reset ∧ State.reset.cfg.FixedWire ∧ State.reset.rows[0]? = some 0x00#8 ∧
      State.reset.rows[15]? = some 0x00#8 := by decide

theorem witness_FlushDependsOnTheBufferAlone :
    State.reset.cfg.FixedWire ∧ (withText [0x31#8]).cfg.FixedWire ∧
      State.reset.rows = (withText [0x31#8]).rows ∧ State.reset.cfg.nRows = (withText [0x31#8]).cfg.nRows ∧
      State.reset.cfg.writeTag = (withText [0x31#8]).cfg.writeTag ∧
      (∀ i ∈ [Instr.setOn, .init], writesRows i = false) ∧
      ∃ t v, exec .flush State.reset = .next t ∧ execAll [Instr.setOn, .init] t = .next v := by
  have hw : State.reset.cfg.FixedWire := by decide
  obtain ⟨t, h, hc⟩ := answers .flush State.reset hw rfl
  obtain ⟨v, h'⟩ := execAll_answers [Instr.setOn, .init] (by decide) t (hc ▸ hw)
  exact ⟨hw, hw, rfl, rfl, rfl, by decide, t, v, h, h'⟩

theorem witness_FlushSendsTheLatestRow :
    RowsWf State.reset ∧ State.reset.cfg.FixedWire ∧ writesRows (.setString 0 true) = true ∧
      0 < State.reset.cfg.nRows ∧ 15 < State.reset.cfg.nRows := by decide

theorem witness_FlushAddressesWrapAt32Rows :
    RowsWf (withRows 33) ∧ (withRows 33).cfg.FixedWire ∧ 0 + 32 < (withRows 33).cfg.nRows := by decide

theorem witness_SetOnAndSetOffSendTheirCommand :
    State.reset.cfg.FixedWire ∧
      State.reset.cfg.cmdLcdOff ∉ [State.reset.cfg.cmdOsc, State.reset.cfg.cmdBias, State.reset.cfg.cmdLcdOn] ∧
      ∃ t, exec .setOff State.reset = .next t :=
  ⟨by decide, by decide, (answers _ _ (by decide) rfl).imp fun _ h => h.1⟩

theorem witness_SetCharWritesTheGlyph :
    RowsWf State.reset ∧ (0 : Int) ≤ 15 ∧ (15 : Int) < (State.reset.cfg.nRows : Int) ∧
      State.reset.cfg.charMap[(126#8).toNat]? = some 0x7E#8 ∧
      State.reset.cfg.mapSize ≤ (127#8).toNat ∧
      State.reset.cfg.charMap[State.reset.cfg.blankIndex]? = some 0x00#8 := by decide +kernel

theorem witness_SetCharChangesOneRowOrNothing :
    ((0 : Int) ≤ 0 ∧ (0 : Int) < (State.reset.cfg.nRows : Int)) ∧
      ¬((0 : Int) ≤ 20 ∧ (20 : Int) < (State.reset.cfg.nRows : Int)) := by decide

theorem witness_MapLookupStaysInsideTheMap : Config.tc.Legal := by decide +kernel

theorem witness_SetStringPlacesItsText :
    RowsWf (withText [0x31#8, 0x2E#8]) ∧ (withText [0x31#8, 0x2E#8]).cfg.PointIsNoTerminator := by decide

theorem witness_SetStringScenarios :
    RowsWf (withText []) ∧ 6 ≤ (withText []).cfg.nRows ∧ (withText []).cfg.slots = 6 ∧
      (withText []).cfg.AsciiCodes ∧
      (withText [0x54#8, 0x65#8, 0x73#8, 0x74#8]).textPort = [0x54#8, 0x65#8, 0x73#8, 0x74#8] ∧
      (withText [0x31#8, 0x2E#8, 0x35#8]).textPort = [0x31#8, 0x2E#8, 0x35#8] ∧
      (withText [0x2E#8, 0x35#8]).textPort = [0x2E#8, 0x35#8] := by decide

theorem witness_OrdinaryTextFillsThePositions :
    RowsWf (withText [0x31#8, 0x32#8]) ∧
      (withText [0x31#8, 0x32#8]).cfg.dpChar ∉ (withText [0x31#8, 0x32#8]).textPort ∧
      (withText [0x31#8, 0x32#8]).cfg.PointIsNoTerminator := by decide

theorem witness_SetStringStopsAtTheTerminator :
    Config.tc.PointIsNoTerminator ∧
      (withText [0x41#8, 0x00#8, 0x42#8]).textPort = [0x41#8] ++ Config.tc.terminator :: [0x42#8] ∧
      textAt Config.tc (withText []).textPort 0 = Config.tc.terminator := by decide

theorem witness_LayoutEndsWithinTheText :
    Config.tc.PointIsNoTerminator ∧ [0x41#8, 0x42#8].length + 1 ≤ 3 := by decide

theorem witness_OnlyReservedRequestsAreRefused :
    State.reset.cfg.FixedWire ∧ ∃ t, exec (.sendBits 0x00#8 9) State.reset = .next t := ⟨by decide, _, rfl⟩

theorem witness_RowsAndLinesAreWrittenApart :
    State.reset.cfg.FixedWire ∧ (∃ t, exec (.setChar 0 0x31#8 true) State.reset = .next t) ∧
      writesRows (.setChar 0 0x31#8 true) = true ∧ writesRows .flush = false := ⟨by decide, ⟨_, rfl⟩, rfl, rfl⟩

theorem witness_HazardsComeOnlyFromTheListedOperations :
    Instr.setOn.onHostSurface = true ∧ State.reset.cfg.Legal ∧ State.reset.cfg.DistinctCodes ∧
      ∃ t, exec .setOn State.reset = .next t :=
  ⟨rfl, by decide +kernel, by decide, (answers _ _ (by decide) rfl).imp fun _ h => h.1⟩

theorem witness_StepsOnlyAddToTheRecord :
    (withRequest 0x00000006#32).cfg.FixedWire ∧ ∃ t, step (withRequest 0x00000006#32) = .next t :=
  ⟨by decide, (step_answers _ (by decide)).imp fun _ h => h.1⟩

/-- A state that meets the invariant and the step from it: row 3 written, INIT pending. -/
theorem witness_StepsKeepTheInvariant :
    ∃ s t, Inv s ∧ s.rows ≠ State.reset.rows ∧ step s = .next t :=
  ⟨{ withRequest 0x00000001#32 with rows := (List.replicate 16 0x00#8).set 3 0x5A#8 }, _,
    ⟨by decide, by decide, by decide, fun _ _ h => by cases h⟩, by decide, rfl⟩

/-- A state with a history that is not empty: the pin setup alone. -/
theorem witness_StepsKeepTheHistory : ∃ s t, HasHistory s ∧ s.trace ≠ [] ∧ step s = .next t := by
  refine ⟨pinSetup (withRequest 0x00000005#32), _, ⟨[.setup], ?_⟩, by simp [pinSetup, record], rfl⟩
  refine ⟨by decide, rfl, by simp, ?_, ?_, ?_, ?_, ?_⟩
  · simp [pinSetup, record]
  · simp [pinSetup, record, withRequest, loadNext, State.reset, State.afterReset]
  · simp [pinSetup, record, withRequest, loadNext, State.reset, State.afterReset]
  · refine ⟨fun h => by simp [pinSetup, record, withRequest, loadNext, State.reset, State.afterReset,
      HazardSet.empty] at h, ?_⟩
    rintro ⟨before, x, later, h, h1, h2⟩
    cases before <;> simp_all
  · refine ⟨fun h => by simp [pinSetup, record, withRequest, loadNext, State.reset, State.afterReset,
      HazardSet.empty] at h, ?_⟩
    rintro ⟨before, p, later, h, -⟩
    cases before <;> simp at h

theorem witness_ResetMeetsTheInvariants :
    (withRows 3).cfg.FixedWire ∧ (List.replicate 3 0x5A#8).length = (withRows 3).cfg.nRows := by decide

theorem witness_InitFirstRunsRecordNoHazard :
    Config.tc.FixedWire ∧ Config.tc.DistinctCodes ∧ ∃ t, Sys2Proof.core.run 2
      { State.afterReset Config.tc [] false true false with
        pending := { word := 0x00000001#32, text := [] } :: [{ word := 0x00000006#32, text := [] }] } = .next t := by
  have hw : Config.tc.FixedWire := by decide
  refine ⟨hw, by decide, ?_⟩
  simp only [Host.Core.run, Sys2Proof.core]
  obtain ⟨t, h, hc⟩ := step_answers { State.afterReset Config.tc [] false true false with
    pending := { word := 0x00000001#32, text := [] } :: [{ word := 0x00000006#32, text := [] }] } hw
  obtain ⟨u, h', -⟩ := step_answers t (hc ▸ hw)
  rw [h]
  dsimp only
  rw [h']
  exact ⟨_, rfl⟩

theorem witness_BroughtUpStatesStayFreeOfHazards :
    ∃ s t, s.cfg.FixedWire ∧ s.cfg.DistinctCodes ∧ BroughtUp s ∧ NoHazard s ∧ s.pending ≠ [] ∧ step s = .next t :=
  ⟨{ withRequest 0x00000006#32 with pinsReady := true, oscSent := true, biasSent := true }, _,
    by decide, by decide, by decide, by decide, by decide, rfl⟩

end Sys2Proof.Tests
end

/-! The step by what stands first in the queue of requests (O10). -/

section
namespace Sys2Proof.Laws

open Sys2Proof.Machine

/-! ## What a step takes -/

theorem fetch_of_pending_nil {s : State} (h : s.pending = []) : fetch s = none := by
  simp [fetch, h]

theorem fetch_of_pending_cons {s : State} {r : Request} {rest : List Request} (h : s.pending = r :: rest) :
    fetch s = some (r.word, { s with pending := rest, textPort := r.text }) := by
  simp [fetch, h]

/-- The word put in front of the queue is the one taken, and taking it gives back the state it was put into. -/
@[simp] theorem fetch_withFetchWord (s : State) (nbits w : Nat) :
    fetch (s.withFetchWord nbits w) = some (tableWord nbits w, s) :=
  rfl

theorem decode_tableWord_of_decodeTableWord {nbits w : Nat} {i : Instr} (h : decodeTableWord nbits w = some i) :
    decode (tableWord nbits w) = .ok i := by
  unfold decodeTableWord at h
  split at h
  · cases hd : decode (tableWord nbits w) with
    | ok j => simpa [hd] using h
    | error e => simp [hd] at h
  · cases h

/-! ## What a step does with it -/

theorem step_of_fetch_none {s : State} (hf : fetch s = none) : step s = .next s := by
  simp [step, hf]

theorem step_of_decode_ok {s s' : State} {w : Word} {i : Instr} (hf : fetch s = some (w, s'))
    (hd : decode w = .ok i) : step s = exec i s' := by
  simp [step, hf, hd]

theorem step_of_decode_error {s s' : State} {w : Word} {e : DecodeError} (hf : fetch s = some (w, s'))
    (hd : decode w = .error e) : step s = .next (refuse s') := by
  simp [step, hf, hd, rejectWord]

/-- Settles O10: each clause is the step's rule for what `fetch` gives there. -/
theorem stepRunsTheNextRequest : Obligations.StepRunsTheNextRequest := by
  unfold Obligations.StepRunsTheNextRequest
  refine ⟨fun s r rest i hp hd => ?_, fun s r rest e hp hd => ?_, fun s hp => ?_, fun s nbits w i h => ?_⟩
  · exact step_of_decode_ok (fetch_of_pending_cons hp) hd
  · exact step_of_decode_error (fetch_of_pending_cons hp) hd
  · exact step_of_fetch_none (fetch_of_pending_nil hp)
  · exact step_of_decode_ok (fetch_withFetchWord s nbits w) (decode_tableWord_of_decodeTableWord h)

end Sys2Proof.Laws
end

/-! The family of the state (O49, O51, O52, O54, O55): what a step takes, what it adds to the record, the invariant, and
which operations write the rows. -/

section
namespace Sys2Proof.Laws

open Sys2Proof.Machine

/-! ## One step as an effect -/

/-- A step that answers has a composition of the primitive effects, from a state that differs from the first one in
the request taken from the host at most. -/
theorem effect_of_step {s t : State} (hw : s.cfg.FixedWire) (h : step s = .next t) :
    ∃ pending textPort, Effect { s with pending := pending, textPort := textPort } t := by
  rcases step_cases s hw with ⟨-, hs⟩ | ⟨r, rest, u, -, hs, he⟩
  · obtain rfl := Host.Outcome.next.inj (hs.symm.trans h)
    exact ⟨s.pending, s.textPort, .refl s⟩
  · obtain rfl := Host.Outcome.next.inj (hs.symm.trans h)
    exact ⟨rest, r.text, he⟩

/-! ## The invariant -/

theorem binBits_getLast? (k v : Nat) (h : k ≠ 0) : (binBits k v).getLast? = some (v.testBit 0) := by
  obtain ⟨n, rfl⟩ := Nat.exists_eq_succ_of_ne_zero h
  simp [binBits, List.range_succ]

theorem commandBits_getLast? (cfg : Config) (h : cfg.FixedWire) (c : Byte) (p : Bool) :
    (commandBits cfg c p).getLast? = some p := by
  obtain ⟨-, -, -, hp, -, -⟩ := h
  simp [commandBits, hp, binBits_one_bool]

theorem dataFrameBits_getLast? (cfg : Config) (h : cfg.FixedWire) (m : Tag) (a : Nat) (d : Byte) :
    (dataFrameBits cfg m a d).getLast? = some (d.getLsbD 0) := by
  obtain ⟨-, -, -, -, -, hd⟩ := h
  rw [dataFrameBits, hd, List.getLast?_append, binBits_getLast? 8 _ (by decide)]
  rfl

/-- After a pin setup only the level of `CS` is known, and it is high (D24). -/
theorem latchesFollowTrace_pinSetup (s : State) : LatchesFollowTrace (pinSetup s) := by
  intro l b h
  rw [pinSetup_trace, levelAfter_append] at h
  cases l with
  | cs => simpa [levelAfter, latch] using h
  | wr => simp [levelAfter] at h
  | data => simp [levelAfter] at h

/-- A frame sets every line, so the latches follow the trace after it whatever they were before (R101). -/
theorem latchesFollowTrace_of_frame {t : State} {before : List Event} {bits : List Bool}
    (htrace : t.trace = before ++ frameEvents bits) (hcs : t.lineCs = true) (hwr : t.lineWr = true)
    (hdata : bits.getLast? = some t.lineData) : LatchesFollowTrace t := by
  have hne : bits ≠ [] := by rintro rfl; simp at hdata
  intro l b h
  rw [htrace, levelAfter_append, levelAfter_frameEvents _ _ _ hne] at h
  cases l with
  | cs => exact hcs.trans (Option.some.inj h)
  | wr => exact hwr.trans (Option.some.inj h)
  | data => exact Option.some.inj (hdata.symm.trans h)

/-- The invariant speaks of the number of the rows only, and not of the host's requests and the refusal. -/
theorem inv_of_same_wire {s : State} (h : Inv s) (rows : List Byte) (refused : Bool) (pending : List Request)
    (textPort : List Byte) (hl : rows.length = s.rows.length) :
    Inv { s with rows := rows, refused := refused, pending := pending, textPort := textPort } :=
  ⟨h.fixedWire, hl.trans h.rows, h.idleHigh, h.latches⟩

theorem inv_setRow {s : State} (h : Inv s) (row : Int) (v : Byte) : Inv (setRow row v s) := by
  rw [setRow_only_rows]
  exact inv_of_same_wire h _ s.refused s.pending s.textPort (setRow_rows_length row v s)

theorem inv_afterCommandFrame {s : State} (h : Inv s) (c : Byte) (p : Bool) : Inv (afterCommandFrame c p s) where
  fixedWire := h.fixedWire
  rows := h.rows
  idleHigh _ := rfl
  latches := latchesFollowTrace_of_frame rfl rfl rfl (commandBits_getLast? _ h.fixedWire c p)

theorem inv_afterDataFrame {s : State} (h : Inv s) (m : Tag) (a : Nat) (d : Byte) :
    Inv (afterDataFrame m a d s) where
  fixedWire := h.fixedWire
  rows := h.rows
  idleHigh _ := rfl
  latches := latchesFollowTrace_of_frame rfl rfl rfl (dataFrameBits_getLast? _ h.fixedWire m a d)

theorem Effect.inv {s t : State} (e : Effect s t) (h : Inv s) : Inv t := by
  induction e with
  | refl s => exact h
  | row row v s => exact inv_setRow h row v
  | refuse s => exact inv_of_same_wire h s.rows true s.pending s.textPort rfl
  | setup s => exact ⟨h.fixedWire, h.rows, fun _ => rfl, latchesFollowTrace_pinSetup s⟩
  | command c s => exact inv_afterCommandFrame h c s.cfg.padBit
  | data m a d s => exact inv_afterDataFrame h m a d
  | trans _ _ ih₁ ih₂ => exact ih₂ (ih₁ h)

/-- Settles O52: taking the request keeps the invariant, and so does every effect. -/
theorem stepsKeepTheInvariant : Obligations.StepsKeepTheInvariant := by
  unfold Obligations.StepsKeepTheInvariant
  intro s t hs ht
  obtain ⟨pending, textPort, e⟩ := effect_of_step hs.fixedWire ht
  exact e.inv (inv_of_same_wire hs s.rows s.refused pending textPort rfl)

/-! ## The record -/

/-- `t` has the configuration and the number of rows of `s`, and everything that `s` has on record (R28, R30). -/
structure AddsToRecord (s t : State) : Prop where
  cfg : t.cfg = s.cfg
  rows : t.rows.length = s.rows.length
  trace : s.trace <+: t.trace
  pinsReady : s.pinsReady = true → t.pinsReady = true
  oscSent : s.oscSent = true → t.oscSent = true
  biasSent : s.biasSent = true → t.biasSent = true
  haz : ∀ m, s.haz.has m = true → t.haz.has m = true
  refused : s.refused = true → t.refused = true

theorem AddsToRecord.refl (s : State) : AddsToRecord s s :=
  ⟨rfl, rfl, List.prefix_rfl, id, id, id, fun _ => id, id⟩

theorem AddsToRecord.trans {s t u : State} (h : AddsToRecord s t) (k : AddsToRecord t u) : AddsToRecord s u where
  cfg := k.cfg.trans h.cfg
  rows := k.rows.trans h.rows
  trace := h.trace.trans k.trace
  pinsReady := k.pinsReady ∘ h.pinsReady
  oscSent := k.oscSent ∘ h.oscSent
  biasSent := k.biasSent ∘ h.biasSent
  haz m := k.haz m ∘ h.haz m
  refused := k.refused ∘ h.refused

theorem has_hazAfterPins (s : State) (m : HazardMark) (h : s.haz.has m = true) : (hazAfterPins s).has m = true := by
  cases m with
  | preInitTransmit => exact Bool.or_eq_true_iff.mpr (.inl h)
  | onBeforeConfig => exact h

theorem has_afterCommandFrame (c : Byte) (p : Bool) (s : State) (m : HazardMark) (h : s.haz.has m = true) :
    (afterCommandFrame c p s).haz.has m = true := by
  cases m <;> exact Bool.or_eq_true_iff.mpr (.inl h)

theorem addsToRecord_setRow (row : Int) (v : Byte) (s : State) : AddsToRecord s (setRow row v s) := by
  rw [setRow_only_rows]
  exact { AddsToRecord.refl s with rows := setRow_rows_length row v s }

theorem addsToRecord_refuse (s : State) : AddsToRecord s (refuse s) :=
  { AddsToRecord.refl s with refused := fun _ => rfl }

theorem addsToRecord_pinSetup (s : State) : AddsToRecord s (pinSetup s) :=
  { AddsToRecord.refl s with
    trace := List.prefix_append _ _
    pinsReady := fun _ => rfl }

theorem addsToRecord_afterCommandFrame (c : Byte) (p : Bool) (s : State) :
    AddsToRecord s (afterCommandFrame c p s) :=
  { AddsToRecord.refl s with
    trace := List.prefix_append _ _
    oscSent := fun h => Bool.or_eq_true_iff.mpr (.inl h)
    biasSent := fun h => Bool.or_eq_true_iff.mpr (.inl h)
    haz := has_afterCommandFrame c p s }

theorem addsToRecord_afterDataFrame (m : Tag) (a : Nat) (d : Byte) (s : State) :
    AddsToRecord s (afterDataFrame m a d s) :=
  { AddsToRecord.refl s with
    trace := List.prefix_append _ _
    haz := has_hazAfterPins s }

theorem Effect.addsToRecord {s t : State} (e : Effect s t) : AddsToRecord s t := by
  induction e with
  | refl s => exact .refl s
  | row row v s => exact addsToRecord_setRow row v s
  | refuse s => exact addsToRecord_refuse s
  | setup s => exact addsToRecord_pinSetup s
  | command c s => exact addsToRecord_afterCommandFrame c s.cfg.padBit s
  | data m a d s => exact addsToRecord_afterDataFrame m a d s
  | trans _ _ ih₁ ih₂ => exact ih₁.trans ih₂

/-- Settles O51: taking the request leaves the record, and every effect adds to it. -/
theorem stepsOnlyAddToTheRecord : Obligations.StepsOnlyAddToTheRecord := by
  unfold Obligations.StepsOnlyAddToTheRecord
  intro s t hw ht
  obtain ⟨pending, textPort, e⟩ := effect_of_step hw ht
  obtain ⟨cfg, rows, trace, pinsReady, oscSent, biasSent, haz, refused⟩ := e.addsToRecord
  exact ⟨cfg, rows, trace.imp fun _ => Eq.symm, pinsReady, oscSent, biasSent, haz, refused⟩

/-! ## Which operations write the rows -/

@[simp] theorem sendBits_rows (v : Byte) (n : Nat) (s : State) : (sendBits v n s).rows = s.rows := by
  unfold sendBits
  split
  · rw [foldl_clockBit_eq]
  · rfl

@[simp] theorem sendField_rows (k x : Nat) (s : State) : (sendField k x s).rows = s.rows := sendBits_rows _ _ _

@[simp] theorem pin_rows (l : Line) (b : Bool) (s : State) : (pin l b s).rows = s.rows := by
  rw [pin_eq, setLatch_rows]

@[simp] theorem commandFrame_rows (c : Byte) (p : Bool) (s : State) : (commandFrame c p s).rows = s.rows := by
  simp [commandFrame, ghostCommand_eq]

@[simp] theorem sendCommand_rows (c : Byte) (s : State) : (sendCommand c s).rows = s.rows := commandFrame_rows _ _ _

@[simp] theorem sendData_rows (a : Nat) (d : Byte) (m : Tag) (s : State) : (sendData a d m s).rows = s.rows := by
  simp [sendData]

theorem foldl_flushRow_rows (rs : List Nat) (s : State) : (rs.foldl flushRow s).rows = s.rows := by
  induction rs generalizing s with
  | nil => rfl
  | cons r rs ih => rw [List.foldl_cons, ih, flushRow, sendData_rows]

/-- The operations that write rows change nothing else (R45). -/
theorem exec_only_rows (i : Instr) (s : State) (h : writesRows i = true) :
    ∃ rows, exec i s = .next { s with rows := rows } := by
  cases i with
  | setRow row v => exact ⟨_, congrArg _ (setRow_only_rows row v s)⟩
  | setChar p c dp => exact ⟨_, congrArg _ (setChar_only_rows p c dp s)⟩
  | setString start num =>
    obtain ⟨rows, -, he⟩ := layout_only_rows s.cfg s.textPort num (s.textPort.length + 1) 0 0 s
    exact ⟨rows, congrArg _ he⟩
  | _ => cases h

/-- The other operations leave the rows (R22). -/
theorem exec_keeps_rows (i : Instr) (s : State) (h : writesRows i = false) :
    ∃ t, exec i s = .next t ∧ t.rows = s.rows := by
  cases i with
  | setRow _ _ => cases h
  | setChar _ _ _ => cases h
  | setString _ _ => cases h
  | init => exact ⟨_, rfl, by simp⟩
  | flush => exact ⟨_, rfl, foldl_flushRow_rows _ s⟩
  | setOn => exact ⟨_, rfl, sendCommand_rows _ s⟩
  | setOff => exact ⟨_, rfl, sendCommand_rows _ s⟩
  | sendCommand c => exact ⟨_, rfl, sendCommand_rows c s⟩
  | sendData a d m => exact ⟨_, rfl, sendData_rows a d m s⟩
  | reservedOp0 _ => exact ⟨_, rfl, refuse_rows s⟩
  | reservedOpAB _ _ => exact ⟨_, rfl, refuse_rows s⟩
  | reservedOpCF _ _ => exact ⟨_, rfl, refuse_rows s⟩
  | sendBits v n => exact ⟨_, rfl, sendBits_rows v n s⟩
  | wCmd c p => exact ⟨_, rfl, commandFrame_rows c p s⟩
  | wWr m a d => exact ⟨_, rfl, sendData_rows a.toNat d m s⟩
  | cmdSysEn p => exact ⟨_, rfl, commandFrame_rows _ p s⟩
  | cmdOsc p => exact ⟨_, rfl, commandFrame_rows _ p s⟩
  | cmdBias p => exact ⟨_, rfl, commandFrame_rows _ p s⟩
  | cmdLcdOn p => exact ⟨_, rfl, commandFrame_rows _ p s⟩
  | cmdLcdOff p => exact ⟨_, rfl, commandFrame_rows _ p s⟩

/-- Settles O49: an operation answers one state, and what it may change depends on whether it writes rows. -/
theorem rowsAndLinesAreWrittenApart : Obligations.RowsAndLinesAreWrittenApart := by
  unfold Obligations.RowsAndLinesAreWrittenApart
  intro i s t _ ht
  constructor
  · intro h
    obtain ⟨rows, he⟩ := exec_only_rows i s h
    obtain rfl := Host.Outcome.next.inj (he.symm.trans ht)
    rfl
  · intro h
    obtain ⟨u, he, hr⟩ := exec_keeps_rows i s h
    obtain rfl := Host.Outcome.next.inj (he.symm.trans ht)
    exact hr

/-! ## Reset -/

theorem tc_mapSize : Config.tc.mapSize = 127 := by simp [Config.mapSize, Config.tc, Config.testMap]

theorem tc_legal : Config.tc.Legal := by
  unfold Config.Legal
  rw [tc_mapSize]
  decide

/-- Settles O54: the model's reset is the test configuration's, with every row 0x00 and every line low. -/
theorem resetClearsTheRecord : Obligations.ResetClearsTheRecord := by
  unfold Obligations.ResetClearsTheRecord
  refine ⟨fun cfg rows cs wr data => ⟨rfl, rfl, rfl, rfl, rfl, rfl, rfl, rfl, rfl, rfl, rfl⟩, ?_⟩
  exact ⟨Config.tc, _, false, false, false, tc_legal, List.length_replicate, rfl⟩

theorem inv_afterReset (cfg : Config) (rows : List Byte) (cs wr data : Bool) (hw : cfg.FixedWire)
    (hl : rows.length = cfg.nRows) : Inv (State.afterReset cfg rows cs wr data) where
  fixedWire := hw
  rows := hl
  idleHigh h := by cases h
  latches _ _ h := by cases h

/-- The history of the reset state is empty. -/
theorem isHistory_afterReset (cfg : Config) (rows : List Byte) (cs wr data : Bool) (hw : cfg.FixedWire) :
    IsHistory (State.afterReset cfg rows cs wr data) [] where
  fixedWire := hw
  trace := rfl
  padding _ _ h := by cases h
  pinsReady := by simp [State.afterReset]
  oscSent := by simp [State.afterReset]
  biasSent := by simp [State.afterReset]
  preInitTransmit := by simp [State.afterReset, HazardSet.empty]
  onBeforeConfig := by simp [State.afterReset, HazardSet.empty]

/-- Settles O55: the invariant and the empty history at reset, and the model's reset as one case. -/
theorem resetMeetsTheInvariants : Obligations.ResetMeetsTheInvariants := by
  unfold Obligations.ResetMeetsTheInvariants
  have hw : Config.tc.FixedWire := by decide
  constructor
  · intro cfg rows cs wr data hw hl
    exact ⟨inv_afterReset _ _ _ _ _ hw hl, [], isHistory_afterReset _ _ _ _ _ hw⟩
  · exact ⟨inv_afterReset _ _ _ _ _ hw List.length_replicate, [], isHistory_afterReset _ _ _ _ _ hw⟩

end Sys2Proof.Laws
end

/-! The family of memory (O11, O29, O33, O38): requests served one a step, the row buffer between two FLUSH requests, and
the lookup in the character map. -/

section
namespace Sys2Proof.Laws

open Sys2Proof.Machine

/-! ## The character map -/

/-- Settles O38: the index is inside the map, so the read there gives the entry and not the default. -/
theorem mapLookupStaysInsideTheMap : Obligations.MapLookupStaysInsideTheMap := by
  unfold Obligations.MapLookupStaysInsideTheMap
  intro cfg c h
  have hi : mapIndex cfg c < cfg.charMap.length := mapIndex_lt cfg h c
  simp [readMap, hi]

/-! ## Runs over the queue -/

/-- Only the host's queue decides what is pending: no effect of an operation adds or takes a request (R13). -/
theorem Effect.pending {s t : State} (e : Effect s t) : t.pending = s.pending := by
  induction e with
  | row _ _ _ => exact setRow_pending _ _ _
  | trans _ _ ih₁ ih₂ => exact ih₂.trans ih₁
  | _ => rfl

/-- With a request pending a step answers, and takes that one request off the queue. -/
theorem step_of_pending_cons {s : State} {r : Request} {rest : List Request} (hw : s.cfg.FixedWire)
    (h : s.pending = r :: rest) : ∃ t, step s = .next t ∧ t.pending = rest ∧ t.cfg = s.cfg := by
  rcases step_cases s hw with ⟨hnil, -⟩ | ⟨r', rest', t, hcons, ht, e⟩
  · simp [hnil] at h
  · obtain ⟨-, rfl⟩ := List.cons.inj (hcons.symm.trans h)
    exact ⟨t, ht, e.pending, e.cfg⟩

theorem run_succ_of_step {s t : State} (k : Nat) (h : step s = .next t) :
    Sys2Proof.core.run (k + 1) s = Sys2Proof.core.run k t := by
  have hcore : Sys2Proof.core.step s = .next t := h
  simp only [Host.Core.run, hcore]

/-- Settles O11, by induction on the requests served. -/
theorem runsServeEveryRequestInOrder : Obligations.RunsServeEveryRequestInOrder := by
  unfold Obligations.RunsServeEveryRequestInOrder
  intro s first later hw hp
  induction first generalizing s with
  | nil => exact ⟨s, rfl, hp⟩
  | cons r rest ih =>
    obtain ⟨t, ht, hrest, hcfg⟩ := step_of_pending_cons hw hp
    obtain ⟨u, hu, hlater⟩ := ih t (hcfg ▸ hw) hrest
    exact ⟨u, (run_succ_of_step rest.length ht).trans hu, hlater⟩

/-! ## What FLUSH appends -/

/-- The frames FLUSH sends, one for each row (R111). -/
def flushFrames (s : State) : List (List Bool) := rowFrames s (List.range s.cfg.nRows)

@[simp] theorem flushFrames_length (s : State) : (flushFrames s).length = s.cfg.nRows := by
  simp [flushFrames, rowFrames]

theorem flushFrames_getElem? (s : State) {r : Nat} (h : r < s.cfg.nRows) :
    (flushFrames s)[r]? = some (dataFrameBits s.cfg s.cfg.writeTag (2 * r) (readRow r s)) := by
  simp [flushFrames, rowFrames, h]

/-- The frames depend on the rows and the configuration alone (R115). -/
theorem flushFrames_congr {s t : State} (hrows : t.rows = s.rows) (hcfg : t.cfg = s.cfg) :
    flushFrames t = flushFrames s := by
  simp [flushFrames, rowFrames, readRow, hrows, hcfg]

theorem foldl_flushRow_trace (rs : List Nat) (s : State) (hw : s.cfg.FixedWire) :
    (rs.foldl flushRow s).trace = s.trace ++ (rowFrames s rs).flatMap frameEvents := by
  by_cases h : rs = []
  · simp [h, rowFrames]
  · rw [foldl_flushRow_eq rs s hw h]

/-- FLUSH appends its frames, with any number of rows, 0 included. -/
theorem exec_flush_trace (s : State) (hw : s.cfg.FixedWire) :
    ∃ t, exec .flush s = .next t ∧ t.trace = s.trace ++ (flushFrames s).flatMap frameEvents :=
  ⟨_, rfl, foldl_flushRow_trace _ s hw⟩

theorem flushFrames_events_ne_nil (s : State) (h : 1 ≤ s.cfg.nRows) :
    (flushFrames s).flatMap frameEvents ≠ [] := by
  have hne : flushFrames s ≠ [] := List.ne_nil_of_length_pos (by rwa [flushFrames_length])
  obtain ⟨f, fs, hf⟩ := List.exists_cons_of_ne_nil hne
  simp [hf, frameEvents]

/-! ## Between two FLUSH requests -/

theorem sendBits_cfg (v : Byte) (n : Nat) (s : State) : (sendBits v n s).cfg = s.cfg := by
  unfold sendBits
  split
  · rw [foldl_clockBit_eq]
  · rfl

theorem commandFrame_cfg (c : Byte) (p : Bool) (s : State) (hw : s.cfg.FixedWire) :
    (commandFrame c p s).cfg = s.cfg := by
  rw [commandFrame_eq c p s hw, afterCommandFrame_cfg]

theorem sendData_cfg (a : Nat) (d : Byte) (m : Tag) (s : State) (hw : s.cfg.FixedWire) :
    (sendData a d m s).cfg = s.cfg := by
  rw [sendData_eq a d m s hw, afterDataFrame_cfg]

/-- No operation changes the configuration (R26), whether or not a host word carries it. -/
theorem exec_keeps_cfg (i : Instr) (s : State) (hw : s.cfg.FixedWire) : ∃ t, exec i s = .next t ∧ t.cfg = s.cfg := by
  by_cases h : i.onHostSurface = true
  · obtain ⟨t, ht, e⟩ := exec_effect i s hw h
    exact ⟨t, ht, e.cfg⟩
  · cases i with
    | sendBits v n => exact ⟨_, rfl, sendBits_cfg v n s⟩
    | wCmd c p => exact ⟨_, rfl, commandFrame_cfg c p s hw⟩
    | wWr m a d => exact ⟨_, rfl, sendData_cfg a.toNat d m s hw⟩
    | cmdSysEn p => exact ⟨_, rfl, commandFrame_cfg _ p s hw⟩
    | cmdOsc p => exact ⟨_, rfl, commandFrame_cfg _ p s hw⟩
    | cmdBias p => exact ⟨_, rfl, commandFrame_cfg _ p s hw⟩
    | cmdLcdOn p => exact ⟨_, rfl, commandFrame_cfg _ p s hw⟩
    | cmdLcdOff p => exact ⟨_, rfl, commandFrame_cfg _ p s hw⟩
    | _ => exact absurd rfl h

/-- An operation that writes no row leaves what FLUSH sends. -/
theorem exec_keeps_buffer (i : Instr) (s : State) (hw : s.cfg.FixedWire) (h : writesRows i = false) :
    ∃ t, exec i s = .next t ∧ t.rows = s.rows ∧ t.cfg = s.cfg := by
  obtain ⟨t, ht, hrows⟩ := exec_keeps_rows i s h
  obtain ⟨u, hu, hcfg⟩ := exec_keeps_cfg i s hw
  obtain rfl := Host.Outcome.next.inj (ht.symm.trans hu)
  exact ⟨t, ht, hrows, hcfg⟩

/-- Any number of such operations leave it (R115). -/
theorem execAll_keeps_buffer {between : List Instr} {s v : State} (hw : s.cfg.FixedWire)
    (h : ∀ i ∈ between, writesRows i = false) (hv : execAll between s = .next v) :
    v.rows = s.rows ∧ v.cfg = s.cfg := by
  induction between generalizing s with
  | nil =>
    obtain rfl := Host.Outcome.next.inj hv
    exact ⟨rfl, rfl⟩
  | cons i rest ih =>
    obtain ⟨hi, hrest⟩ := List.forall_mem_cons.mp h
    obtain ⟨t, ht, hrows, hcfg⟩ := exec_keeps_buffer i s hw hi
    simp only [execAll, ht] at hv
    obtain ⟨hrows', hcfg'⟩ := ih (hcfg ▸ hw) hrest hv
    exact ⟨hrows'.trans hrows, hcfg'.trans hcfg⟩

theorem setRow_idem (row : Int) (v : Byte) (s : State) : setRow row v (setRow row v s) = setRow row v s := by
  by_cases h : 0 ≤ row ∧ row < (s.cfg.nRows : Int)
  · simp [setRow, h]
  · rw [setRow_out_of_range row v s h, setRow_out_of_range row v s h]

/-- Settles O29: a row written twice is written once, and what FLUSH appends is a function of a buffer that neither
FLUSH nor an operation between the two calls writes. -/
theorem repeatedRequests : Obligations.RepeatedRequests := by
  unfold Obligations.RepeatedRequests
  constructor
  · intro row data s t ht
    obtain rfl : setRow row data s = t := Host.Outcome.next.inj ht
    exact congrArg Host.Outcome.next (setRow_idem row data s)
  · rintro s ⟨hn, -, -, -, -, hw⟩
    obtain ⟨t, ht, htrace⟩ := exec_flush_trace s hw
    refine ⟨t, _, ht, htrace, flushFrames_events_ne_nil s hn, fun between v hb hv => ?_⟩
    have hkeep : v.rows = s.rows ∧ v.cfg = s.cfg :=
      execAll_keeps_buffer (between := .flush :: between) hw (List.forall_mem_cons.mpr ⟨rfl, hb⟩)
        (by simpa only [execAll, ht] using hv)
    obtain ⟨hrows, hcfg⟩ := hkeep
    rw [← flushFrames_congr hrows hcfg]
    exact exec_flush_trace v (hcfg ▸ hw)

/-! ## FLUSH after a row write -/

/-- A row write appends no event, and the FLUSH after it is received as the frames of the rows it left. -/
theorem exec_flush_after_row_write (i : Instr) (s : State) (data : Bool) (hw : s.cfg.FixedWire)
    (h : writesRows i = true) :
    ∃ t u events, exec i s = .next t ∧ t.trace = s.trace ∧ t.cfg = s.cfg ∧ exec .flush t = .next u ∧
      u.trace = t.trace ++ events ∧ receivedFrames none data events = flushFrames t := by
  obtain ⟨rows, ht⟩ := exec_only_rows i s h
  obtain ⟨u, hu, htrace⟩ := exec_flush_trace { s with rows := rows } hw
  exact ⟨_, u, _, ht, rfl, rfl, hu, htrace, receivedFrames_flatMap _ data⟩

/-- Settles O33: the frames received are those of the rows after the write, and SET_ROW's row holds its byte. -/
theorem flushSendsTheLatestRow : Obligations.FlushSendsTheLatestRow := by
  unfold Obligations.FlushSendsTheLatestRow
  constructor
  · intro i s data _ hw hi
    obtain ⟨t, u, events, ht, hquiet, hcfg, hu, htrace, hframes⟩ := exec_flush_after_row_write i s data hw hi
    rw [← hcfg]
    refine ⟨t, u, events, ht, hquiet, hu, htrace, ?_, fun r hr => ?_⟩
    · rw [hframes, flushFrames_length]
    · rw [hframes, flushFrames_getElem? t hr]
  · intro s row v data hs hw hrow
    obtain ⟨t, u, events, ht, hquiet, hcfg, hu, htrace, hframes⟩ :=
      exec_flush_after_row_write (.setRow row v) s data hw rfl
    have hread : readRow row t = v := by
      obtain rfl : setRow row v s = t := Host.Outcome.next.inj ht
      rw [readRow_setRow _ _ _ hs _ hrow, if_pos rfl]
    refine ⟨t, u, events, ht, hquiet, hu, htrace, ?_⟩
    rw [hframes, flushFrames_getElem? t (hcfg ▸ hrow), hread, hcfg]

end Sys2Proof.Laws
end

/-! The family of the encoding, the history of the wire (O53): every effect of a step leaves the history as it is or
adds one item at its end. -/

section
namespace Sys2Proof.Laws

open Sys2Proof.Machine

/-! ## A history with one item more -/

/-- Some item of the history stands after a beginning it is in the relation `P` to. -/
def Sometime (P : List WireItem → WireItem → Prop) (h : List WireItem) : Prop :=
  ∃ before x after, h = before ++ x :: after ∧ P before x

theorem sometime_append_singleton (P : List WireItem → WireItem → Prop) (h : List WireItem) (y : WireItem) :
    Sometime P (h ++ [y]) ↔ Sometime P h ∨ P h y := by
  constructor
  · rintro ⟨before, x, after, heq, hp⟩
    cases after using List.reverseRecOn with
    | nil =>
      obtain ⟨rfl, rfl⟩ := List.append_singleton_inj.mp heq
      exact .inr hp
    | append_singleton after z =>
      rw [← List.cons_append, ← List.append_assoc] at heq
      exact .inl ⟨before, x, after, (List.append_singleton_inj.mp heq).1, hp⟩
  · rintro (⟨before, x, after, rfl, hp⟩ | hp)
    · exact ⟨before, x, after ++ [y], by simp, hp⟩
    · exact ⟨h, y, [], rfl, hp⟩

/-- A frame before any pin setup (R181). -/
def BeforeSetup (before : List WireItem) (x : WireItem) : Prop := .setup ∉ before ∧ x ≠ .setup

/-- Both the oscillator and the bias have been selected (R183). -/
def Configured (cfg : Config) (h : List WireItem) : Prop :=
  (∃ p, .command cfg.cmdOsc p ∈ h) ∧ ∃ p, .command cfg.cmdBias p ∈ h

/-- A display-on command before both the oscillator and the bias (R183). -/
def OnBeforeConfig (cfg : Config) (before : List WireItem) (x : WireItem) : Prop :=
  (∃ p, x = .command cfg.cmdLcdOn p) ∧ ¬Configured cfg before

theorem sometime_onBeforeConfig_iff (cfg : Config) (h : List WireItem) :
    Sometime (OnBeforeConfig cfg) h ↔
      ∃ before p after, h = before ++ .command cfg.cmdLcdOn p :: after ∧ ¬Configured cfg before := by
  constructor
  · rintro ⟨before, _, after, rfl, ⟨p, rfl⟩, hc⟩
    exact ⟨before, p, after, rfl, hc⟩
  · rintro ⟨before, p, after, rfl, hc⟩
    exact ⟨before, _, after, rfl, ⟨p, rfl⟩, hc⟩

/-- `t` is `s` after the wire item `x`: its events are on the trace, and the ghost state has been told of it (R168). -/
structure AppendsItem (s : State) (x : WireItem) (t : State) : Prop where
  cfg : t.cfg = s.cfg
  trace : t.trace = s.trace ++ x.events s.cfg
  padding : ∀ c p, x = .command c p → p = s.cfg.padBit
  pinsReady : t.pinsReady = true ↔ s.pinsReady = true ∨ x = .setup
  oscSent : t.oscSent = true ↔ s.oscSent = true ∨ ∃ p, x = .command s.cfg.cmdOsc p
  biasSent : t.biasSent = true ↔ s.biasSent = true ∨ ∃ p, x = .command s.cfg.cmdBias p
  preInitTransmit : t.haz.preInitTransmit = true ↔
    s.haz.preInitTransmit = true ∨ ¬s.pinsReady = true ∧ x ≠ .setup
  onBeforeConfig : t.haz.onBeforeConfig = true ↔
    s.haz.onBeforeConfig = true ∨ (∃ p, x = .command s.cfg.cmdLcdOn p) ∧ ¬(s.oscSent = true ∧ s.biasSent = true)

theorem exists_command_mem_append (c : Byte) (h : List WireItem) (x : WireItem) :
    (∃ p, WireItem.command c p ∈ h ++ [x]) ↔ (∃ p, WireItem.command c p ∈ h) ∨ ∃ p, x = .command c p := by
  simp only [List.mem_append, List.mem_singleton, exists_or, eq_comm]

/-- The history grows by the item. -/
theorem isHistory_append {s t : State} {h : List WireItem} {x : WireItem} (hs : IsHistory s h)
    (a : AppendsItem s x t) : IsHistory t (h ++ [x]) where
  fixedWire := a.cfg ▸ hs.fixedWire
  trace := by rw [a.trace, hs.trace, a.cfg, List.flatMap_append, List.flatMap_singleton]
  padding c p hm := by
    rw [a.cfg]
    rcases List.mem_append.mp hm with hm | hm
    · exact hs.padding c p hm
    · exact a.padding c p (List.mem_singleton.mp hm).symm
  pinsReady := by rw [a.pinsReady, hs.pinsReady, List.mem_append, List.mem_singleton, eq_comm]
  oscSent := by rw [a.oscSent, hs.oscSent, a.cfg, exists_command_mem_append]
  biasSent := by rw [a.biasSent, hs.biasSent, a.cfg, exists_command_mem_append]
  preInitTransmit := by
    rw [a.preInitTransmit, hs.preInitTransmit, hs.pinsReady]
    exact (sometime_append_singleton BeforeSetup h x).symm
  onBeforeConfig := by
    rw [a.onBeforeConfig, hs.onBeforeConfig, hs.oscSent, hs.biasSent, a.cfg]
    refine .trans ?_ (sometime_onBeforeConfig_iff s.cfg (h ++ [x]))
    rw [sometime_append_singleton, sometime_onBeforeConfig_iff]
    rfl

/-! ## The three items -/

theorem appendsItem_pinSetup (s : State) : AppendsItem s .setup (pinSetup s) := by
  constructor <;> simp [WireItem.events]

theorem appendsItem_afterCommandFrame (c : Byte) (s : State) :
    AppendsItem s (.command c s.cfg.padBit) (afterCommandFrame c s.cfg.padBit s) := by
  constructor <;> simp [WireItem.events, afterCommandFrame]
  case onBeforeConfig => cases s.oscSent <;> simp

/-- The wire carries the low six bits of an address (R93). -/
theorem dataFrameBits_ofNat (cfg : Config) (h : cfg.FixedWire) (m : Tag) (a : Nat) (d : Byte) :
    dataFrameBits cfg m (BitVec.ofNat 6 a).toNat d = dataFrameBits cfg m a d := by
  obtain ⟨-, -, -, -, ha, -⟩ := h
  rw [dataFrameBits, ha, BitVec.toNat_ofNat, binBits_mod, dataFrameBits, ha]

theorem appendsItem_afterDataFrame (m : Tag) (a : Nat) (d : Byte) (s : State) (h : s.cfg.FixedWire) :
    AppendsItem s (.data m (BitVec.ofNat 6 a) d) (afterDataFrame m a d s) := by
  constructor <;> simp [WireItem.events, afterDataFrame, hazAfterPins, dataFrameBits_ofNat _ h, -BitVec.toNat_ofNat]

/-! ## Steps -/

/-- A history speaks of the wire and the ghost state alone. -/
theorem isHistory_of_same_wire {s : State} {h : List WireItem} (hs : IsHistory s h) (rows : List Byte)
    (refused : Bool) (pending : List Request) (textPort : List Byte) :
    IsHistory { s with rows := rows, refused := refused, pending := pending, textPort := textPort } h :=
  ⟨hs.fixedWire, hs.trace, hs.padding, hs.pinsReady, hs.oscSent, hs.biasSent, hs.preInitTransmit, hs.onBeforeConfig⟩

theorem Effect.hasHistory {s t : State} (e : Effect s t) (hs : HasHistory s) : HasHistory t := by
  induction e with
  | refl s => exact hs
  | row row v s =>
    obtain ⟨h, hh⟩ := hs
    rw [setRow_only_rows]
    exact ⟨h, isHistory_of_same_wire hh _ s.refused s.pending s.textPort⟩
  | refuse s =>
    obtain ⟨h, hh⟩ := hs
    exact ⟨h, isHistory_of_same_wire hh s.rows true s.pending s.textPort⟩
  | setup s =>
    obtain ⟨h, hh⟩ := hs
    exact ⟨_, isHistory_append hh (appendsItem_pinSetup s)⟩
  | command c s =>
    obtain ⟨h, hh⟩ := hs
    exact ⟨_, isHistory_append hh (appendsItem_afterCommandFrame c s)⟩
  | data m a d s =>
    obtain ⟨h, hh⟩ := hs
    exact ⟨_, isHistory_append hh (appendsItem_afterDataFrame m a d s hh.fixedWire)⟩
  | trans _ _ ih₁ ih₂ => exact ih₂ (ih₁ hs)

/-- Settles O53: taking the request keeps the history, and every effect leaves it as it is or adds one item to it. -/
theorem stepsKeepTheHistory : Obligations.StepsKeepTheHistory := by
  unfold Obligations.StepsKeepTheHistory
  intro s t ⟨h, hh⟩ ht
  obtain ⟨pending, textPort, e⟩ := effect_of_step hh.fixedWire ht
  exact e.hasHistory ⟨h, isHistory_of_same_wire hh s.rows s.refused pending textPort⟩

end Sys2Proof.Laws
end

/-! The family of the encoding, the host words (O1, O2, O3, O4, O5, O6, O13, O46): a mask and a match, a word of format
H and a reserved word, each as equations between the fields of a word. -/

section
namespace Sys2Proof.Laws

open Sys2Proof.Machine

/-! ## A word by its fields -/

/-- Bits 31 to 24, which are in no field of format H (R60). -/
def topField (w : Word) : Byte := w.extractLsb' 24 8

/-- Words that agree on a field agree on each of its bits. -/
theorem getLsbD_eq_of_extractLsb'_eq {v w : Word} {start len : Nat}
    (h : v.extractLsb' start len = w.extractLsb' start len) {i : Nat} (hs : start ≤ i) (hi : i < start + len) :
    v.getLsbD i = w.getLsbD i := by
  have hbit := congrArg (·.getLsbD (i - start)) h
  have hlt : i - start < len := by omega
  simpa only [BitVec.getLsbD_extractLsb', hlt, decide_true, Bool.true_and, Nat.add_sub_cancel' hs] using hbit

/-- A word is its `OP` and the rest of it (R62). -/
theorem word_ext_payload {v w : Word} (hop : opField v = opField w) (hp : payloadField v = payloadField w) :
    v = w := by
  refine BitVec.eq_of_getLsbD_eq fun i hi => ?_
  rcases Nat.lt_or_ge i 4 with h4 | h4
  · exact getLsbD_eq_of_extractLsb'_eq hop (by omega) h4
  · exact getLsbD_eq_of_extractLsb'_eq hp h4 hi

/-- A word is its fields and its top byte (R60). -/
theorem word_ext {v w : Word} (hop : opField v = opField w) (hf : flagField v = flagField w)
    (hm : modeField v = modeField w) (ha : aField v = aField w) (hb : bField v = bField w)
    (ht : topField v = topField w) : v = w := by
  refine BitVec.eq_of_getLsbD_eq fun i hi => ?_
  have hcases : i < 4 ∨ i = 4 ∨ (5 ≤ i ∧ i < 8) ∨ (8 ≤ i ∧ i < 16) ∨ (16 ≤ i ∧ i < 24) ∨ 24 ≤ i := by omega
  rcases hcases with h | rfl | ⟨h, h'⟩ | ⟨h, h'⟩ | ⟨h, h'⟩ | h
  · exact getLsbD_eq_of_extractLsb'_eq hop (by omega) h
  · exact hf
  · exact getLsbD_eq_of_extractLsb'_eq hm h h'
  · exact getLsbD_eq_of_extractLsb'_eq ha h h'
  · exact getLsbD_eq_of_extractLsb'_eq hb h h'
  · exact getLsbD_eq_of_extractLsb'_eq ht h hi

@[simp] theorem opField_and (v w : Word) : opField (v &&& w) = opField v &&& opField w := BitVec.extractLsb'_and
@[simp] theorem flagField_and (v w : Word) : flagField (v &&& w) = (flagField v && flagField w) :=
  BitVec.getLsbD_and
@[simp] theorem modeField_and (v w : Word) : modeField (v &&& w) = modeField v &&& modeField w :=
  BitVec.extractLsb'_and
@[simp] theorem aField_and (v w : Word) : aField (v &&& w) = aField v &&& aField w := BitVec.extractLsb'_and
@[simp] theorem bField_and (v w : Word) : bField (v &&& w) = bField v &&& bField w := BitVec.extractLsb'_and
@[simp] theorem topField_and (v w : Word) : topField (v &&& w) = topField v &&& topField w :=
  BitVec.extractLsb'_and

theorem topField_formH (op : BitVec 4) (f : Bool) (m : Tag) (a b : Byte) : topField (formH op f m a b) = 0#8 := by
  refine BitVec.eq_of_getLsbD_eq fun i hi => ?_
  have ho : op.getLsbD (24 + i) = false := BitVec.getLsbD_of_ge _ _ (by omega)
  have hf : (BitVec.ofBool f).getLsbD (24 + i - 4) = false := BitVec.getLsbD_of_ge _ _ (by omega)
  have hm : m.getLsbD (24 + i - 5) = false := BitVec.getLsbD_of_ge _ _ (by omega)
  have ha : a.getLsbD (24 + i - 8) = false := BitVec.getLsbD_of_ge _ _ (by omega)
  have hb : b.getLsbD (24 + i - 16) = false := BitVec.getLsbD_of_ge _ _ (by omega)
  simp [-BitVec.getLsbD_eq_getElem, topField, BitVec.getLsbD_extractLsb', formH_getLsbD, ho, hf, hm, ha, hb]

/-! ## Words of format H and reserved words by their fields -/

theorem formH_eq_iff (op : BitVec 4) (f : Bool) (m : Tag) (a b : Byte) (w : Word) :
    formH op f m a b = w ↔ opField w = op ∧ flagField w = f ∧ modeField w = m ∧ aField w = a ∧ bField w = b ∧
      topField w = 0#8 := by
  constructor
  · rintro rfl
    exact ⟨opField_formH .., flagField_formH .., modeField_formH .., aField_formH .., bField_formH ..,
      topField_formH ..⟩
  · rintro ⟨rfl, rfl, rfl, rfl, rfl, ht⟩
    exact word_ext (opField_formH ..) (flagField_formH ..) (modeField_formH ..) (aField_formH ..) (bField_formH ..)
      ((topField_formH ..).trans ht.symm)

theorem reservedWord_eq_iff (op : BitVec 4) (p : BitVec 28) (w : Word) :
    reservedWord op p = w ↔ opField w = op ∧ payloadField w = p := by
  constructor
  · rintro rfl
    exact ⟨opField_reservedWord op p, payloadField_reservedWord op p⟩
  · rintro ⟨rfl, rfl⟩
    exact word_ext_payload (opField_reservedWord ..) (payloadField_reservedWord ..)

/-- A mask and a match compare a word field by field (R63). -/
theorem and_eq_iff_fields (w mask pattern : Word) :
    w &&& mask = pattern ↔ opField w &&& opField mask = opField pattern ∧
      (flagField w && flagField mask) = flagField pattern ∧ modeField w &&& modeField mask = modeField pattern ∧
      aField w &&& aField mask = aField pattern ∧ bField w &&& bField mask = bField pattern ∧
      topField w &&& topField mask = topField pattern := by
  constructor
  · rintro rfl
    simp
  · rintro ⟨hop, hf, hm, ha, hb, ht⟩
    apply word_ext <;> simp [*]

/-! ## The fields of a literal word -/

@[simp] theorem opField_ofNat (n : Nat) : opField (BitVec.ofNat 32 n) = BitVec.ofNat 4 n := by
  simp [opField, ← BitVec.toNat_inj]
@[simp] theorem flagField_ofNat (n : Nat) : flagField (BitVec.ofNat 32 n) = decide (n / 2 ^ 4 % 2 = 1) := by
  simp [flagField, -BitVec.getLsbD_eq_getElem, BitVec.getLsbD_ofNat, Nat.testBit_eq_decide_div_mod_eq]
@[simp] theorem modeField_ofNat (n : Nat) : modeField (BitVec.ofNat 32 n) = BitVec.ofNat 3 (n / 2 ^ 5) := by
  simp [modeField, ← BitVec.toNat_inj, Nat.shiftRight_eq_div_pow]; omega
@[simp] theorem aField_ofNat (n : Nat) : aField (BitVec.ofNat 32 n) = BitVec.ofNat 8 (n / 2 ^ 8) := by
  simp [aField, ← BitVec.toNat_inj, Nat.shiftRight_eq_div_pow]; omega
@[simp] theorem bField_ofNat (n : Nat) : bField (BitVec.ofNat 32 n) = BitVec.ofNat 8 (n / 2 ^ 16) := by
  simp [bField, ← BitVec.toNat_inj, Nat.shiftRight_eq_div_pow]; omega
@[simp] theorem topField_ofNat (n : Nat) : topField (BitVec.ofNat 32 n) = BitVec.ofNat 8 (n / 2 ^ 24) := by
  simp [topField, ← BitVec.toNat_inj, Nat.shiftRight_eq_div_pow]; omega

/-- Masks that fix a whole field. -/
@[simp] theorem and_mask_op (x : BitVec 4) : x &&& 15#4 = x := BitVec.and_allOnes
@[simp] theorem and_mask_mode (x : Tag) : x &&& 7#3 = x := BitVec.and_allOnes
@[simp] theorem and_mask_byte (x : Byte) : x &&& 255#8 = x := BitVec.and_allOnes

/-! ## The fields a reserved word splits its `OP` into -/

theorem extractLsb'_zero_eq_opField (w : Word) (k : Nat) (h : k ≤ 4) :
    w.extractLsb' 0 k = (opField w).extractLsb' 0 k := by
  refine BitVec.eq_of_getLsbD_eq fun i hi => ?_
  have h4 : i < 4 := by omega
  simp [-BitVec.getLsbD_eq_getElem, opField, BitVec.getLsbD_extractLsb', hi, h4]

/-- The bits of `OP` that the masks of the reserved rows leave free are the operand `low` (R62). -/
theorem opAB_eq_append : ∀ op : BitVec 4, op &&& 14#4 = 10#4 → op = 0b101#3 ++ op.extractLsb' 0 1 := by decide
theorem opCF_eq_append : ∀ op : BitVec 4, op &&& 12#4 = 12#4 → op = 0b11#2 ++ op.extractLsb' 0 2 := by decide
theorem opAB_append : ∀ low : BitVec 1,
    (0b101#3 ++ low) &&& 14#4 = 10#4 ∧ (0b101#3 ++ low).extractLsb' 0 1 = low := by
  decide
theorem opCF_append : ∀ low : BitVec 2,
    (0b11#2 ++ low) &&& 12#4 = 12#4 ∧ (0b11#2 ++ low).extractLsb' 0 2 = low := by
  decide

/-! ## Rows of the table -/

theorem rowOperand_bounds (w : Word) : 0 ≤ rowOperand w ∧ rowOperand w ≤ 255 := by
  have h := (aField w).isLt
  unfold rowOperand
  omega

theorem addressOperand_le (w : Word) : addressOperand w ≤ 255 := Nat.le_of_lt_succ (aField w).isLt

/-- What a row reads has operands its fields can carry. -/
theorem wellFormed_read (row : HostRow) (hr : row ∈ hostRows) (w : Word) : (row.read w).wellFormed = true := by
  revert row
  simp [hostRows, Instr.wellFormed, fitsA, rowOperand_bounds, addressOperand_le]

@[simp] theorem ofInt_rowOperand (w : Word) : BitVec.ofInt 8 (rowOperand w) = aField w := by
  simp [rowOperand]
@[simp] theorem ofNat_addressOperand (w : Word) : BitVec.ofNat 8 (addressOperand w) = aField w := by
  simp [addressOperand]

/-- A word that fits a row is the word of what the row reads. In the nine rows of format H the fields that the mask fixes
and the fields that the row reads are all there are; a reserved row also reads a part of `OP`. -/
theorem encode_read (row : HostRow) (hr : row ∈ hostRows) (w : Word) (h : w &&& row.mask = row.pattern) :
    encode (row.read w) = some w := by
  revert row
  simp +contextual [hostRows, encode, formH_eq_iff, reservedWord_eq_iff, and_eq_iff_fields, extractLsb'_zero_eq_opField]
  exact ⟨opAB_eq_append _, opCF_eq_append _⟩

theorem rowOperand_formH (op : BitVec 4) (f : Bool) (m : Tag) {row : Int} (b : Byte) (h : fitsA row = true) :
    rowOperand (formH op f m (BitVec.ofInt 8 row) b) = row := by
  simp only [fitsA, Bool.and_eq_true, decide_eq_true_eq] at h
  rw [rowOperand, aField_formH, BitVec.toNat_ofInt]
  omega

theorem addressOperand_formH (op : BitVec 4) (f : Bool) (m : Tag) {a : Nat} (b : Byte) (h : a ≤ 255) :
    addressOperand (formH op f m (BitVec.ofNat 8 a) b) = a := by
  rw [addressOperand, aField_formH, BitVec.toNat_ofNat]
  omega

/-- The word of a request fits a row that reads the request. -/
theorem exists_row_of_encode {i : Instr} {w : Word} (hi : i.wellFormed = true) (he : encode i = some w) :
    ∃ row ∈ hostRows, w &&& row.mask = row.pattern ∧ row.read w = i := by
  have formH_fields := fun op f m a b => (formH_eq_iff op f m a b _).mp rfl
  cases i with
  | init | flush | setOn | setOff | sendCommand _ =>
    obtain rfl := Option.some.inj he
    simp [hostRows, and_eq_iff_fields, formH_fields]
  | setRow _ _ | setChar _ _ _ | setString _ _ =>
    obtain rfl := Option.some.inj he
    simp [hostRows, and_eq_iff_fields, formH_fields, rowOperand_formH _ _ _ _ hi]
  | sendData _ _ _ =>
    obtain rfl := Option.some.inj he
    simp [hostRows, and_eq_iff_fields, formH_fields, addressOperand_formH _ _ _ _ (of_decide_eq_true hi)]
  | reservedOp0 _ =>
    obtain rfl := Option.some.inj he
    simp [hostRows, and_eq_iff_fields, opField_reservedWord, payloadField_reservedWord]
  | reservedOpAB low _ =>
    obtain rfl := Option.some.inj he
    simp [hostRows, and_eq_iff_fields, opField_reservedWord, payloadField_reservedWord, extractLsb'_zero_eq_opField,
      opAB_append low]
  | reservedOpCF low _ =>
    obtain rfl := Option.some.inj he
    simp [hostRows, and_eq_iff_fields, opField_reservedWord, payloadField_reservedWord, extractLsb'_zero_eq_opField,
      opCF_append low]
  | sendBits _ _ | wCmd _ _ | wWr _ _ _ | cmdSysEn _ | cmdOsc _ | cmdBias _ | cmdLcdOn _ | cmdLcdOff _ => cases he

/-- An operation of the host surface has a word (R61, R62). -/
theorem exists_encode {i : Instr} (h : i.onHostSurface = true) : ∃ w, encode i = some w := by
  cases i with
  | sendBits _ _ | wCmd _ _ | wWr _ _ _ | cmdSysEn _ | cmdOsc _ | cmdBias _ | cmdLcdOn _ | cmdLcdOff _ => cases h
  | _ => exact ⟨_, rfl⟩

theorem encode_eq_none {i : Instr} (h : i.onHostSurface = false) : encode i = none := by
  cases i with
  | sendBits _ _ | wCmd _ _ | wWr _ _ _ | cmdSysEn _ | cmdOsc _ | cmdBias _ | cmdLcdOn _ | cmdLcdOff _ => rfl
  | _ => cases h

/-! ## The statements about host words -/

/-- Settles O2: the request's word fits a row that reads the request, and a word fits one row at most. -/
theorem decodeOfEncodeIsTheInstruction : Obligations.DecodeOfEncodeIsTheInstruction := by
  unfold Obligations.DecodeOfEncodeIsTheInstruction
  intro i hi hs
  obtain ⟨w, he⟩ := exists_encode hs
  obtain ⟨row, hr, hfit, rfl⟩ := exists_row_of_encode hi he
  exact ⟨w, he, decode_of_row w row hr hfit⟩

/-- Settles O3: the row a word was read from fixes every bit that the row does not read. -/
theorem decodedWordEncodesBack : Obligations.DecodedWordEncodesBack := by
  unfold Obligations.DecodedWordEncodesBack
  intro w i hd
  obtain ⟨row, hr, hfit, rfl⟩ := decode_ok_row w i hd
  exact ⟨wellFormed_read row hr w, decode_onHostSurface w _ hd, encode_read row hr w hfit⟩

/-- Settles O4: the encoder gives no word, and the decoder reads operations of the host surface only. -/
theorem internalOperationsHaveNoHostWord : Obligations.InternalOperationsHaveNoHostWord := by
  unfold Obligations.InternalOperationsHaveNoHostWord
  intro i h
  refine ⟨encode_eq_none h, fun w hd => ?_⟩
  simp [decode_onHostSurface w i hd] at h

/-- Settles O46: the meaning of a reserved row is the shared refusal. -/
theorem reservedRequestsOnlySetRefused : Obligations.ReservedRequestsOnlySetRefused := by
  unfold Obligations.ReservedRequestsOnlySetRefused
  exact fun s => ⟨fun _ => rfl, fun _ _ => rfl, fun _ _ => rfl⟩

/-! ## Words with a reserved `OP` -/

theorem decode_reservedOp0 {w : Word} (h : opField w = 0x0#4) : decode w = .ok (.reservedOp0 (payloadField w)) :=
  decode_of_row w hostRows[9] (List.getElem_mem _) (by simp [hostRows, and_eq_iff_fields, h])

theorem decode_reservedOpAB {w : Word} (h : opField w &&& 14#4 = 10#4) :
    decode w = .ok (.reservedOpAB (w.extractLsb' 0 1) (payloadField w)) :=
  decode_of_row w hostRows[10] (List.getElem_mem _) (by simp [hostRows, and_eq_iff_fields, h])

theorem decode_reservedOpCF {w : Word} (h : opField w &&& 12#4 = 12#4) :
    decode w = .ok (.reservedOpCF (w.extractLsb' 0 2) (payloadField w)) :=
  decode_of_row w hostRows[11] (List.getElem_mem _) (by simp [hostRows, and_eq_iff_fields, h])

theorem reservedOp_cases : ∀ op : BitVec 4, op = 0x0#4 ∨ 0xA ≤ op.toNat →
    op = 0x0#4 ∨ op &&& 14#4 = 10#4 ∨ op &&& 12#4 = 12#4 := by
  decide

/-- Settles O5: a reserved `OP` fits one of the three reserved rows, whose operations are all refused. -/
theorem reservedOpsAreRefused : Obligations.ReservedOpsAreRefused := by
  unfold Obligations.ReservedOpsAreRefused
  intro w h
  rcases reservedOp_cases (opField w) h with h | h | h
  · exact ⟨_, decode_reservedOp0 h, fun s => (reservedRequestsOnlySetRefused s).1 _⟩
  · exact ⟨_, decode_reservedOpAB h, fun s => (reservedRequestsOnlySetRefused s).2.1 _ _⟩
  · exact ⟨_, decode_reservedOpCF h, fun s => (reservedRequestsOnlySetRefused s).2.2 _ _⟩

/-! ## Words with a reserved bit -/

/-- The `OP` of a row decides the row. -/
theorem hostRows_unique_of_op : ∀ a ∈ hostRows, ∀ b ∈ hostRows,
    opField a.pattern &&& opField b.mask = opField b.pattern → b.mask = a.mask ∧ b.pattern = a.pattern := by
  decide

/-- Settles O6: the table of R63 is that of `hostRows`, and a word fits no row but that of its `OP`. -/
theorem reservedBitsAreRefused : Obligations.ReservedBitsAreRefused := by
  unfold Obligations.ReservedBitsAreRefused
  intro op mask pattern hmem w hop
  have hrow : (op, mask, pattern) ∈
      (hostRows.take 9).map fun row => (opField row.pattern, row.mask, row.pattern) := hmem
  obtain ⟨row, htake, heq⟩ := List.mem_map.mp hrow
  simp only [Prod.mk.injEq] at heq
  obtain ⟨hpattern, rfl, rfl⟩ := heq
  have hr := List.mem_of_mem_take htake
  constructor
  · exact fun hfit => ⟨_, decode_of_row w row hr hfit⟩
  · intro hne
    cases hd : decode w with
    | error e => exact ⟨e, rfl, fun _ => rfl⟩
    | ok i =>
      obtain ⟨row', hr', hfit, -⟩ := decode_ok_row w i hd
      have hop' : opField row.pattern &&& opField row'.mask = opField row'.pattern := by
        rw [hpattern, ← hop, ← opField_and, hfit]
      obtain ⟨hm, hp⟩ := hostRows_unique_of_op row hr row' hr' hop'
      exact absurd (hm ▸ hp ▸ hfit) hne

/-! ## Listed words and assembler forms -/

/-- Settles O1: each word's row of the table, or no row, by evaluation. -/
theorem hostWordsDecodeAsTheSpecLists : Obligations.HostWordsDecodeAsTheSpecLists := by
  unfold Obligations.HostWordsDecodeAsTheSpecLists
  decide

/-- Settles O13: the assembler's forms by their definitions. -/
theorem omittedOperandsTakeTheirDefaults : Obligations.OmittedOperandsTakeTheirDefaults := by
  unfold Obligations.OmittedOperandsTakeTheirDefaults
  exact ⟨fun _ _ => rfl, fun _ => rfl, fun _ _ _ => rfl, fun _ _ _ _ _ _ _ _ => ⟨rfl, rfl, rfl⟩⟩

end Sys2Proof.Laws
end

/-! The family of the encoding, the wire frames (O8, O9): what a receiver reads from the bits of a frame. -/

section
namespace Sys2Proof.Laws

open Sys2Proof.Machine

/-! ## Wire frames read back -/

theorem bitsToNat_append_singleton (bits : List Bool) (b : Bool) :
    bitsToNat (bits ++ [b]) = 2 * bitsToNat bits + b.toNat := by
  simp [bitsToNat]

theorem binBits_succ (k v : Nat) : binBits (k + 1) v = binBits k (v / 2) ++ [v.testBit 0] := by
  simp only [binBits, List.range_succ, List.map_append, List.map_singleton]
  congr 1
  · refine List.map_congr_left fun i hi => ?_
    have h : i < k := List.mem_range.mp hi
    rw [← Nat.testBit_succ]
    congr 1
    omega
  · simp

/-- The number `bin_k` stands for (R9). -/
theorem bitsToNat_binBits (k v : Nat) : bitsToNat (binBits k v) = v % 2 ^ k := by
  induction k generalizing v with
  | zero => simp [binBits, bitsToNat, Nat.mod_one]
  | succ k ih =>
    rw [binBits_succ, bitsToNat_append_singleton, ih, Nat.pow_succ', Nat.mod_mul, Nat.testBit_zero]
    rcases Nat.mod_two_eq_zero_or_one v with h | h <;> simp [h, Nat.add_comm]

/-- A receiver reads a field of full width as its value. -/
theorem ofNat_bitsToNat_binBits {k : Nat} (x : BitVec k) : BitVec.ofNat k (bitsToNat (binBits k x.toNat)) = x := by
  rw [bitsToNat_binBits, Nat.mod_eq_of_lt x.isLt, BitVec.ofNat_toNat, BitVec.setWidth_eq]

/-- A receiver reads a command frame as its code and its padding bit (R66, R68). -/
theorem decodeWire_commandBits (cfg : Config) (h : cfg.FixedWire) (c : Byte) (p : Bool) :
    decodeWire cfg (commandBits cfg c p) = some (.wCmd c p) := by
  have hlen : (commandBits cfg c p).length = cfg.tagBits + cfg.cmdBits + cfg.padBits := by
    simp [commandBits, Nat.add_assoc]
  have htag : (commandBits cfg c p).take cfg.tagBits = binBits cfg.tagBits cfg.cmdTag.toNat := by simp [commandBits]
  have hcode : ((commandBits cfg c p).drop cfg.tagBits).take cfg.cmdBits = binBits cfg.cmdBits c.toNat := by
    simp [commandBits]
  have hpad : (commandBits cfg c p).getLastD false = p := by
    rw [List.getLastD_eq_getLast?, commandBits_getLast? cfg h, Option.getD_some]
  obtain ⟨-, -, hc, -, -, -⟩ := h
  rw [decodeWire, if_pos hlen, if_pos htag, hcode, hpad, hc, ofNat_bitsToNat_binBits]

/-- A receiver reads a data frame as its mode, its wire address and its value (R67, R68): no command frame has its
length. -/
theorem decodeWire_dataFrameBits (cfg : Config) (h : cfg.FixedWire) (m : Tag) (a : BitVec 6) (d : Byte) :
    decodeWire cfg (dataFrameBits cfg m a.toNat d) = some (.wWr m a d) := by
  have hlen : (dataFrameBits cfg m a.toNat d).length = cfg.tagBits + cfg.addrBits + cfg.dataBits := by
    simp [dataFrameBits, Nat.add_assoc]
  have hmode : (dataFrameBits cfg m a.toNat d).take cfg.tagBits = binBits cfg.tagBits m.toNat := by
    simp [dataFrameBits]
  have haddr : ((dataFrameBits cfg m a.toNat d).drop cfg.tagBits).take cfg.addrBits = binBits cfg.addrBits a.toNat := by
    simp [dataFrameBits]
  have hvalue : (dataFrameBits cfg m a.toNat d).drop (cfg.tagBits + cfg.addrBits) = binBits cfg.dataBits d.toNat :=
    List.drop_left' (by simp)
  obtain ⟨-, ht, hc, hp, ha, hd⟩ := h
  have hne : (dataFrameBits cfg m a.toNat d).length ≠ cfg.tagBits + cfg.cmdBits + cfg.padBits := by
    rw [hlen]; omega
  rw [decodeWire, if_neg hne, if_pos hlen, hmode, haddr, hvalue, ht, ha, hd]
  simp only [ofNat_bitsToNat_binBits]

/-- Settles O8: field by field, the receiver's reading of a frame's bits. -/
theorem wireFramesReadBack : Obligations.WireFramesReadBack := by
  unfold Obligations.WireFramesReadBack
  exact ⟨fun cfg c p h => decodeWire_commandBits cfg h c p, fun cfg m a d h => decodeWire_dataFrameBits cfg h m a d⟩

/-- Settles O9: the receiver's reading of the command frame, and of distinct codes each is found under its own name. -/
theorem namedCommandFramesReadBack : Obligations.NamedCommandFramesReadBack := by
  unfold Obligations.NamedCommandFramesReadBack
  intro cfg p h hcodes i hi
  -- The codes are tried in order, so each must differ from those before it.
  have hfirst := List.nodup_reverse.mpr hcodes
  simp only [List.reverse_cons, List.reverse_nil, List.nil_append, List.cons_append, List.nodup_cons,
    List.mem_cons, List.not_mem_nil, or_false, not_or, not_false_eq_true, List.nodup_nil, and_self, and_true] at hfirst
  simp only [List.mem_cons, List.not_mem_nil, or_false] at hi
  rcases hi with rfl | rfl | rfl | rfl | rfl <;>
    simp [encodeWire, decodeNamedCommand, decodeWire_commandBits cfg h, hfirst]

end Sys2Proof.Laws
end

/-! The family of the encoding, the text of SET_STRING (O42): the loop sees its text up to the first terminator. -/

section
namespace Sys2Proof.Laws

open Sys2Proof.Machine

/-! ## The loop of SET_STRING and its text -/

/-- At the terminator the loop ends (R145): in numeric mode '.' is another code. -/
theorem layout_terminator {cfg : Config} {text : List Byte} {numeric : Bool} {j : Nat} (fuel slot : Nat) (s : State)
    (hpoint : numeric = false ∨ cfg.PointIsNoTerminator) (h : textAt cfg text j = cfg.terminator) :
    layout cfg text numeric fuel slot j s = s := by
  have hfold : (numeric && cfg.terminator == cfg.dpChar) = false := by
    rcases hpoint with rfl | hne
    · rfl
    · simp [hne.symm]
  cases fuel with
  | zero => rfl
  | succ fuel => simp [layout, h, hfold]

/-- The loop sees its text up to the first terminator only, and a bound that lets it get there is enough (R145,
R151). -/
theorem layout_congr {cfg : Config} {text text' : List Byte} {numeric : Bool} {stop : Nat}
    (hpoint : numeric = false ∨ cfg.PointIsNoTerminator) (heq : ∀ k ≤ stop, textAt cfg text k = textAt cfg text' k)
    (hstop : textAt cfg text stop = cfg.terminator) {fuel fuel' j : Nat} (slot : Nat) (s : State) (hj : j ≤ stop)
    (hfuel : stop < j + fuel) (hfuel' : stop < j + fuel') :
    layout cfg text numeric fuel slot j s = layout cfg text' numeric fuel' slot j s := by
  induction fuel generalizing fuel' slot j s with
  | zero => omega
  | succ fuel ih =>
    obtain ⟨fuel', rfl⟩ : ∃ n, fuel' = n + 1 := ⟨fuel' - 1, by omega⟩
    rcases Nat.eq_or_lt_of_le hj with rfl | hlt
    · rw [layout_terminator _ slot s hpoint hstop, layout_terminator _ slot s hpoint (heq j hj ▸ hstop)]
    · have hnext (slot' : Nat) (s' : State) :
          layout cfg text numeric fuel slot' (j + 1) s' = layout cfg text' numeric fuel' slot' (j + 1) s' :=
        ih slot' s' hlt (by omega) (by omega)
      simp only [layout, heq j hj, heq (j - 1) (by omega), hnext]

/-- The text port plays no part in the loop, which is given its text. -/
theorem layout_textPort (cfg : Config) (text port : List Byte) (numeric : Bool) (fuel slot j : Nat) (s : State) :
    layout cfg text numeric fuel slot j { s with textPort := port } =
      { layout cfg text numeric fuel slot j s with textPort := port } := by
  have hset (p c dp) (s : State) :
      setChar p c dp { s with textPort := port } = { setChar p c dp s with textPort := port } := by
    unfold setChar setRow
    split_ifs <;> rfl
  induction fuel generalizing slot j s with
  | zero => rfl
  | succ fuel ih =>
    unfold layout
    dsimp only
    split_ifs <;> simp only [hset, ih]

theorem textAt_append_terminator_le (cfg : Config) (head tail : List Byte) {k : Nat} (h : k ≤ head.length) :
    textAt cfg (head ++ cfg.terminator :: tail) k = textAt cfg head k := by
  rcases Nat.eq_or_lt_of_le h with rfl | hlt
  · simp [textAt]
  · simp [textAt, List.getElem?_append_left hlt]

/-- Settles O42: the loop reads the text up to the terminator, where it ends. -/
theorem setStringStopsAtTheTerminator : Obligations.SetStringStopsAtTheTerminator := by
  unfold Obligations.SetStringStopsAtTheTerminator
  constructor
  · intro s start numeric head tail hpoint htext
    refine ⟨_, _, rfl, rfl, ?_⟩
    have hagree : ∀ k ≤ head.length, textAt s.cfg s.textPort k = textAt s.cfg head k := by
      rw [htext]
      exact fun k => textAt_append_terminator_le s.cfg head tail
    have hstop : textAt s.cfg s.textPort head.length = s.cfg.terminator := by
      rw [hagree _ le_rfl, textAt_ge _ _ _ le_rfl]
    have hfuel : head.length < 0 + (s.textPort.length + 1) := by
      rw [htext, List.length_append]
      omega
    have hsame := layout_congr (fuel' := head.length + 1) hpoint hagree hstop 0 s (Nat.zero_le _) hfuel (by omega)
    have hport := layout_textPort s.cfg head head numeric (head.length + 1) 0 0 s
    exact (congrArg State.rows hsame).trans (congrArg State.rows hport).symm
  · intro s start numeric hpoint h
    exact congrArg Host.Outcome.next (layout_terminator _ 0 s hpoint h)

end Sys2Proof.Laws
end

/-! The family of the bit transmitter (O14 to O17): what SEND_BITS does to the state and what is received of it. -/

section
namespace Sys2Proof.Laws

open Sys2Proof.Machine

/-! ## SEND_BITS -/

theorem bodyEvents_topBits (v : Byte) (n : Nat) :
    bodyEvents (topBits v n) =
      (List.range n).flatMap fun k => [Event.pin .wr false, .pin .data (v.getLsbD (7 - k)), .pin .wr true] :=
  List.flatMap_map ..

/-- The top bits are the binary string of the byte, cut to their number (R85). -/
theorem topBits_eq_take_binBits (v : Byte) {n : Nat} (h : n ≤ 8) : topBits v n = (binBits 8 v.toNat).take n := by
  rw [binBits, ← List.map_take, List.take_range, Nat.min_eq_left h]
  rfl

/-- The level of `DATA` after SEND_BITS is that of the last bit sent, if one was (R86). -/
theorem topBits_getLastD_eq_ite (v : Byte) (n : Nat) (d : Bool) :
    (topBits v n).getLastD d = if n = 0 then d else v.getLsbD (8 - n) := by
  split_ifs with h
  · rw [(topBits_eq_nil v n).mpr h, List.getLastD_nil]
  · exact topBits_getLastD v n d h

/-- Bits sent while `CS` is low, with nothing after them, are received as they are (R85). -/
theorem received_low_bodyEvents (bits : List Bool) (d : Bool) : received false d (bodyEvents bits) = bits := by
  simpa [received] using received_bodyEvents bits d []

/-- SEND_BITS of at most 8 bits as the statements write it: the levels of the last bit in place of the fold's. -/
theorem exec_sendBits_of_le (v : Byte) (n : Nat) (s : State) (h : n ≤ 8) :
    exec (.sendBits v n) s = .next
      { s with
        trace := s.trace ++ bodyEvents (topBits v n)
        lineWr := if n = 0 then s.lineWr else true
        lineData := if n = 0 then s.lineData else v.getLsbD (8 - n)
        haz := if n = 0 then s.haz else hazAfterPins s } := by
  rw [← topBits_getLastD_eq_ite]
  exact congrArg Host.Outcome.next (sendBits_eq v n s h)

/-- Settles O16: the count is compared before anything is sent. -/
theorem sendBitsAboveEightIsRefused : Obligations.SendBitsAboveEightIsRefused := by
  unfold Obligations.SendBitsAboveEightIsRefused
  exact fun v n s h => congrArg Host.Outcome.next (sendBits_refused v n s h)

/-- Settles O14, from the closed form of the loop over the bits. -/
theorem sendBitsShiftsOutTheTopBits : Obligations.SendBitsShiftsOutTheTopBits := by
  unfold Obligations.SendBitsShiftsOutTheTopBits
  intro v n s h
  rw [exec_sendBits_of_le v n s h, bodyEvents_topBits]

/-- Settles O15: the events are those of the bits sent, and the lines are read off the closed form. -/
theorem sendBitsEventsAndLines : Obligations.SendBitsEventsAndLines := by
  unfold Obligations.SendBitsEventsAndLines
  intro v n s h
  refine ⟨_, bodyEvents (topBits v n), exec_sendBits_of_le v n s h, rfl, ?_, fun hn => ?_, rfl⟩
  · rw [bodyEvents_length, topBits_length]
  · have hne : n ≠ 0 := Nat.one_le_iff_ne_zero.mp hn
    exact ⟨if_neg hne, if_neg hne⟩

/-- Settles O17: a receiver reads the bits sent, which are the top bits, which are the byte's binary string cut short. -/
theorem sendBitsIsReceivedMsbFirst : Obligations.SendBitsIsReceivedMsbFirst := by
  unfold Obligations.SendBitsIsReceivedMsbFirst
  intro v n s data h
  have hreceived : received false data (bodyEvents (topBits v n)) = topBits v n := received_low_bodyEvents _ data
  exact ⟨_, _, exec_sendBits_of_le v n s h, rfl, hreceived, hreceived.trans (topBits_eq_take_binBits v h)⟩

end Sys2Proof.Laws
end

/-! The family of the frame encoder (O18, O20 to O23): what one frame does to the state and what is received of it. -/

section
namespace Sys2Proof.Laws

open Sys2Proof.Machine

/-! ## One frame -/

/-- Settles O18: the frame field by field is the effect in one expression. -/
theorem sendCommandEmitsOneFrame : Obligations.SendCommandEmitsOneFrame := by
  unfold Obligations.SendCommandEmitsOneFrame
  exact fun cmd s hw => congrArg Host.Outcome.next (sendCommand_eq cmd s hw)

/-- Settles O20: the frame field by field is the effect in one expression, for every operand. -/
theorem sendDataEmitsOneFrame : Obligations.SendDataEmitsOneFrame := by
  unfold Obligations.SendDataEmitsOneFrame
  exact fun address value mode s hw => congrArg Host.Outcome.next (sendData_eq address value mode s hw)

/-- Settles O23: a frame has two events for `CS` and three for each of its bits, and sets every line. -/
theorem frameEventCountsAndLines : Obligations.FrameEventCountsAndLines := by
  unfold Obligations.FrameEventCountsAndLines
  constructor
  · intro cmd s hw
    refine ⟨_, _, sendCommandEmitsOneFrame cmd s hw, rfl, ?_, rfl, rfl, rfl⟩
    rw [frameEvents_length, commandBits_length _ hw]
  · intro address value mode s hw
    refine ⟨_, _, sendDataEmitsOneFrame address value mode s hw, rfl, ?_, rfl, rfl, rfl⟩
    rw [frameEvents_length, dataFrameBits_length _ hw]

/-! ## The bits of a frame -/

/-- The 12 bits of a command frame (R66). -/
theorem commandBits_eq (cfg : Config) (h : cfg.FixedWire) (c : Byte) (p : Bool) :
    commandBits cfg c p = [true, false, false] ++ binBits 8 c.toNat ++ [p] := by
  obtain ⟨htag, ht, hc, hp, -, -⟩ := h
  have hbits : binBits 3 (0b100#3).toNat = [true, false, false] := by decide
  rw [commandBits, htag, ht, hc, hp, hbits, binBits_one_bool]

/-- The 17 bits of a data frame (R67). -/
theorem dataFrameBits_eq (cfg : Config) (h : cfg.FixedWire) (m : Tag) (a : Nat) (d : Byte) :
    dataFrameBits cfg m a d = binBits 3 m.toNat ++ binBits 6 a ++ binBits 8 d.toNat := by
  obtain ⟨-, ht, -, -, ha, hd⟩ := h
  rw [dataFrameBits, ht, ha, hd]

/-- A data frame sees the address modulo 64 (R93). -/
theorem dataFrameBits_address_mod (cfg : Config) (h : cfg.FixedWire) (m : Tag) (a : Nat) (d : Byte) :
    dataFrameBits cfg m (a % 64) d = dataFrameBits cfg m a d := by
  have hmod : binBits 6 (a % 64) = binBits 6 a := binBits_mod 6 a
  rw [dataFrameBits_eq cfg h, dataFrameBits_eq cfg h, hmod]

theorem afterDataFrame_address_mod (m : Tag) (a : Nat) (d : Byte) (s : State) (h : s.cfg.FixedWire) :
    afterDataFrame m (a % 64) d s = afterDataFrame m a d s := by
  rw [afterDataFrame, dataFrameBits_address_mod _ h, afterDataFrame]

/-- The address is shifted past the two low bits of its byte, so six of its bits are left (R93). -/
theorem fieldByte_six_toNat (a : Nat) : (fieldByte 6 a).toNat = a % 64 * 4 := by
  simp only [fieldByte, BitVec.toNat_ofNat, Nat.shiftLeft_eq]
  omega

/-! ## Frames received -/

/-- One frame between frames is received as one frame (R68). -/
theorem receivedFrames_frameEvents_alone (bits : List Bool) (d : Bool) :
    receivedFrames none d (frameEvents bits) = [bits] := by
  simpa using receivedFrames_flatMap [bits] d

/-- Settles O22: a frame is received as its bits, which are the fields one after another. -/
theorem framesAreReceivedBitExact : Obligations.FramesAreReceivedBitExact := by
  unfold Obligations.FramesAreReceivedBitExact
  constructor
  · intro cmd s data hw
    refine ⟨_, _, sendCommandEmitsOneFrame cmd s hw, rfl, ?_⟩
    rw [received_frameEvents]
    exact ⟨commandBits_eq _ hw _ _, commandBits_length _ hw _ _, receivedFrames_frameEvents_alone _ data⟩
  · intro address value mode s data hw
    refine ⟨_, _, sendDataEmitsOneFrame address value mode s hw, rfl, ?_⟩
    rw [received_frameEvents, ← dataFrameBits_eq _ hw, dataFrameBits_address_mod _ hw]
    exact ⟨rfl, dataFrameBits_length _ hw _ _ _, receivedFrames_frameEvents_alone _ data⟩

/-- Settles O21: the address reaches the wire through its low six bits alone, the fourth to the ninth bit received. -/
theorem wireAddressIsTheAddressModulo64 : Obligations.WireAddressIsTheAddressModulo64 := by
  unfold Obligations.WireAddressIsTheAddressModulo64
  refine ⟨fun cfg address hw => ?_, fun address value mode s hw => ?_, fun address value mode s data hw => ?_⟩
  · obtain ⟨-, -, -, -, ha, -⟩ := hw
    rw [ha, fieldByte_six_toNat]
  · rw [sendDataEmitsOneFrame _ _ _ s hw, sendDataEmitsOneFrame _ _ _ s hw, afterDataFrame_address_mod _ _ _ s hw]
  · refine ⟨_, _, sendDataEmitsOneFrame address value mode s hw, rfl, ?_⟩
    rw [received_frameEvents, dataFrameBits_eq _ hw, List.append_assoc, List.drop_left' (binBits_length 3 _),
      List.take_left' (binBits_length 6 _)]
    rfl

end Sys2Proof.Laws
end

/-! The family of the frame encoder, the operations of several frames (O24, O25, O26, O31). -/

section
namespace Sys2Proof.Laws

open Sys2Proof.Machine

/-! ## Marks of a frame -/

/-- With the pins ready a data frame adds no mark (R168). -/
theorem afterDataFrame_haz_of_ready (m : Tag) (a : Nat) (d : Byte) {s : State} (hr : s.pinsReady = true) :
    (afterDataFrame m a d s).haz = s.haz := by
  simp [afterDataFrame, hazAfterPins, hr]

/-- With the pins ready a command frame adds no PRE_INIT_TRANSMIT, whatever its code (R168, R181). -/
theorem afterCommandFrame_preInitTransmit_of_ready (c : Byte) (p : Bool) {s : State} (hr : s.pinsReady = true) :
    (afterCommandFrame c p s).haz.preInitTransmit = s.haz.preInitTransmit := by
  simp [afterCommandFrame, hr]

/-- With the pins ready a command frame adds no mark unless it is a display-on before oscillator and bias (R168,
R183). -/
theorem afterCommandFrame_haz_of_ready (c : Byte) (p : Bool) {s : State} (hr : s.pinsReady = true)
    (h : c ≠ s.cfg.cmdLcdOn ∨ s.oscSent = true ∧ s.biasSent = true) : (afterCommandFrame c p s).haz = s.haz := by
  have hon : (c == s.cfg.cmdLcdOn && !(s.oscSent && s.biasSent)) = false := by
    rcases h with hc | ⟨ho, hb⟩
    · simp [hc]
    · simp [ho, hb]
  refine HazardSet.ext (afterCommandFrame_preInitTransmit_of_ready c p hr) ?_
  exact (congrArg (s.haz.onBeforeConfig || ·) hon).trans (Bool.or_false _)

/-! ## INIT -/

/-- Settles O26: the pin setup writes these fields and no other. -/
theorem pinSetupMakesThePinsReady : Obligations.PinSetupMakesThePinsReady := by
  unfold Obligations.PinSetupMakesThePinsReady
  exact fun s => rfl

/-- The four commands of INIT, in their order (R96). -/
def initCodes (cfg : Config) : List Byte := [cfg.cmdSysEn, cfg.cmdOsc, cfg.cmdBias, cfg.cmdLcdOn]

/-- A state after INIT: the pin setup, then one command frame for each code (R96). -/
def afterInit (s : State) : State :=
  (initCodes s.cfg).foldl (fun t c => afterCommandFrame c s.cfg.padBit t) (pinSetup s)

theorem exec_init_eq (s : State) (h : s.cfg.FixedWire) : exec .init s = .next (afterInit s) := execInit_eq s h

/-- INIT in one expression, but for the marks (R97, R98). -/
theorem afterInit_eq (s : State) :
    afterInit s =
      { s with
        trace := s.trace ++ [Event.pinSetup] ++ (initCodes s.cfg).flatMap
          fun c => frameEvents (commandBits s.cfg c s.cfg.padBit)
        lineCs := true
        lineWr := true
        lineData := s.cfg.padBit
        pinsReady := true
        oscSent := true
        biasSent := true
        haz := (afterInit s).haz
        draws := s.draws + 2 } := by
  ext1 <;> simp [afterInit, initCodes, afterCommandFrame]

/-- No frame of INIT goes out before its pin setup (R181). -/
theorem afterInit_preInitTransmit (s : State) : (afterInit s).haz.preInitTransmit = s.haz.preInitTransmit := by
  simp only [afterInit, initCodes, List.foldl_cons, List.foldl_nil]
  iterate 4 rw [afterCommandFrame_preInitTransmit_of_ready _ _ (by rfl)]
  rfl

theorem ne_cmdLcdOn_of_distinctCodes {cfg : Config} (h : cfg.DistinctCodes) :
    cfg.cmdSysEn ≠ cfg.cmdLcdOn ∧ cfg.cmdOsc ≠ cfg.cmdLcdOn ∧ cfg.cmdBias ≠ cfg.cmdLcdOn := by
  simp only [List.nodup_cons, List.mem_cons, not_or] at h
  obtain ⟨⟨-, -, hsys, -⟩, ⟨-, hosc, -⟩, ⟨hbias, -⟩, -⟩ := h
  exact ⟨hsys, hosc, hbias⟩

/-- With distinct codes INIT adds no mark: three of its codes are not display-on, and that one comes after oscillator
and bias (R183, D21). -/
theorem afterInit_haz (s : State) (h : s.cfg.DistinctCodes) : (afterInit s).haz = s.haz := by
  obtain ⟨hsys, hosc, hbias⟩ := ne_cmdLcdOn_of_distinctCodes h
  simp only [afterInit, initCodes, List.foldl_cons, List.foldl_nil]
  rw [afterCommandFrame_haz_of_ready s.cfg.cmdLcdOn _ (by rfl) (.inr (by simp [afterCommandFrame])),
    afterCommandFrame_haz_of_ready s.cfg.cmdBias _ (by rfl) (.inl (by exact hbias)),
    afterCommandFrame_haz_of_ready s.cfg.cmdOsc _ (by rfl) (.inl (by exact hosc)),
    afterCommandFrame_haz_of_ready s.cfg.cmdSysEn _ (by rfl) (.inl (by exact hsys)), pinSetup_haz]

/-- Settles O24: the effect in one expression, its marks told apart by whether the codes are distinct. -/
theorem initBringsTheChipUp : Obligations.InitBringsTheChipUp := by
  unfold Obligations.InitBringsTheChipUp
  intro s hw
  refine ⟨(afterInit s).haz, ?_, afterInit_preInitTransmit s, afterInit_haz s⟩
  exact (exec_init_eq s hw).trans (congrArg Host.Outcome.next (afterInit_eq s))

theorem afterInit_trace (s : State) :
    (afterInit s).trace = s.trace ++ Event.pinSetup ::
      ((initCodes s.cfg).map fun c => commandBits s.cfg c s.cfg.padBit).flatMap frameEvents := by
  rw [afterInit_eq, List.flatMap_map, List.append_assoc]
  rfl

/-- Settles O25: whole frames are received as they are. -/
theorem initIsReceivedAsFourCommands : Obligations.InitIsReceivedAsFourCommands := by
  unfold Obligations.InitIsReceivedAsFourCommands
  exact fun s data hw => ⟨_, _, exec_init_eq s hw, afterInit_trace s, receivedFrames_flatMap _ data⟩

/-! ## FLUSH -/

/-- Settles O31: whole frames are received as they are, and the frame of row `r` has the bits of its three fields. -/
theorem flushIsReceivedRowByRow : Obligations.FlushIsReceivedRowByRow := by
  unfold Obligations.FlushIsReceivedRowByRow
  intro s data hs hw
  obtain ⟨t, ht, htrace⟩ := exec_flush_trace s hw
  refine ⟨t, _, ht, htrace, ?_⟩
  rw [receivedFrames_flatMap]
  refine ⟨flushFrames_length s, fun r v hv => ?_⟩
  have hr : r < s.cfg.nRows := hs ▸ (List.getElem?_eq_some_iff.mp hv).1
  have hread : readRow r s = v := by rw [readRow, List.getD_eq_getElem?_getD, hv, Option.getD_some]
  rw [flushFrames_getElem? s hr, hread, dataFrameBits_eq _ hw]

end Sys2Proof.Laws
end

/-! The family of the frame encoder, the runs that begin with INIT (O56): a state brought up and free of marks stays
so. -/

section
namespace Sys2Proof.Laws

open Sys2Proof.Machine

/-! ## Brought-up states -/

theorem AddsToRecord.broughtUp {s t : State} (a : AddsToRecord s t) (h : BroughtUp s) : BroughtUp t := by
  obtain ⟨hpins, hosc, hbias⟩ := h
  exact ⟨a.pinsReady hpins, a.oscSent hosc, a.biasSent hbias⟩

/-- From a brought-up state no effect adds a mark (R168). -/
theorem Effect.haz_of_broughtUp {s t : State} (e : Effect s t) (h : BroughtUp s) : t.haz = s.haz := by
  induction e with
  | refl s => rfl
  | row row v s => exact setRow_haz row v s
  | refuse s => rfl
  | setup s => rfl
  | command c s =>
    obtain ⟨hpins, hconfigured⟩ := h
    exact afterCommandFrame_haz_of_ready c _ hpins (.inr hconfigured)
  | data m a d s =>
    obtain ⟨hpins, -⟩ := h
    exact afterDataFrame_haz_of_ready m a d hpins
  | trans e₁ _ ih₁ ih₂ => exact (ih₂ (e₁.addsToRecord.broughtUp h)).trans (ih₁ h)

/-- Brought up without a mark, in a configuration with the wire values of R6. -/
structure SafelyUp (s : State) : Prop where
  fixedWire : s.cfg.FixedWire
  broughtUp : BroughtUp s
  noHazard : NoHazard s

theorem step_keeps_safelyUp {s t : State} (h : SafelyUp s) (ht : step s = .next t) : SafelyUp t := by
  obtain ⟨pending, textPort, e⟩ := effect_of_step h.fixedWire ht
  exact ⟨e.cfg ▸ h.fixedWire, e.addsToRecord.broughtUp h.broughtUp,
    (e.haz_of_broughtUp h.broughtUp).trans h.noHazard⟩

/-- INIT brings a state without a mark up safely (R96, D21). -/
theorem safelyUp_afterInit {s : State} (hw : s.cfg.FixedWire) (hd : s.cfg.DistinctCodes) (hs : NoHazard s) :
    SafelyUp (afterInit s) where
  fixedWire := by rw [afterInit_eq]; exact hw
  broughtUp := by rw [afterInit_eq]; exact ⟨rfl, rfl, rfl⟩
  noHazard := (afterInit_haz s hd).trans hs

/-! ## Runs -/

/-- The first step of a run that answers, and the run after it. -/
theorem exists_step_of_run_succ {n : Nat} {s t : State} (h : Sys2Proof.core.run (n + 1) s = .next t) :
    ∃ u, step s = .next u ∧ Sys2Proof.core.run n u = .next t := by
  cases hs : step s with
  | next u => exact ⟨u, rfl, (run_succ_of_step n hs).symm.trans h⟩
  | fault r => cases r
  | refused r =>
    have hcore : Sys2Proof.core.step s = .refused r := hs
    simp [Host.Core.run, hcore] at h

/-- What every step keeps, every run keeps. -/
theorem run_keeps {P : State → Prop} (hstep : ∀ {s t}, P s → step s = .next t → P t) {n : Nat} {s t : State}
    (hs : P s) (h : Sys2Proof.core.run n s = .next t) : P t := by
  induction n generalizing s with
  | zero => exact Host.Outcome.next.inj h ▸ hs
  | succ n ih =>
    obtain ⟨u, hu, hrest⟩ := exists_step_of_run_succ h
    exact ih (hstep hs hu) hrest

/-- The first step of a run whose first request is INIT. -/
theorem step_init_request {s : State} {text : List Byte} {later : List Request} (hw : s.cfg.FixedWire)
    (hp : s.pending = { word := 0x00000001#32, text := text } :: later) :
    step s = .next (afterInit { s with pending := later, textPort := text }) := by
  have hd : decode 0x00000001#32 = .ok .init := by decide
  exact (step_of_decode_ok (fetch_of_pending_cons hp) hd).trans (exec_init_eq _ hw)

/-- Settles O56: there is no mark at reset, INIT brings the block up safely, and every later step keeps that. -/
theorem initFirstRunsRecordNoHazard : Obligations.InitFirstRunsRecordNoHazard := by
  unfold Obligations.InitFirstRunsRecordNoHazard
  intro cfg rows cs wr data text later n t hw hd hrun
  cases n with
  | zero =>
    obtain rfl := Host.Outcome.next.inj hrun
    rfl
  | succ n =>
    obtain ⟨u, hu, hrest⟩ := exists_step_of_run_succ hrun
    obtain rfl := Host.Outcome.next.inj ((step_init_request hw rfl).symm.trans hu)
    exact (run_keeps step_keeps_safelyUp (safelyUp_afterInit hw hd rfl) hrest).noHazard

end Sys2Proof.Laws
end

/-! The family of the row buffer (O27, O28, O30, O32, O34, O35): what a row write leaves, what FLUSH sends of the rows,
and the two display commands. -/

section
namespace Sys2Proof.Laws

open Sys2Proof.Machine

/-! ## SET_ROW -/

theorem setRow_in_range (row : Int) (v : Byte) (s : State) (h : 0 ≤ row ∧ row < (s.cfg.nRows : Int)) :
    setRow row v s = { s with rows := s.rows.set row.toNat v } := if_pos h

/-- A row write leaves every other row, in range or not. -/
theorem readRow_setRow_of_ne (row : Int) (v : Byte) (s : State) {r : Nat} (h : r ≠ row.toNat) :
    readRow r (setRow row v s) = readRow r s := by
  by_cases hrow : 0 ≤ row ∧ row < (s.cfg.nRows : Int)
  · simp [setRow_in_range row v s hrow, readRow, List.getElem?_set_ne h.symm]
  · rw [setRow_out_of_range row v s hrow]

/-- Settles O27, by the two cases of SET_ROW's range check. -/
theorem setRowWritesItsRowOrNothing : Obligations.SetRowWritesItsRowOrNothing := by
  unfold Obligations.SetRowWritesItsRowOrNothing
  exact fun row v s => ⟨fun h => congrArg Host.Outcome.next (setRow_in_range row v s h),
    fun h => congrArg Host.Outcome.next (setRow_out_of_range row v s h)⟩

/-- Settles O28: a row in range exists in a buffer of `N_ROWS` rows, so it holds what was written; out of range the
write does nothing. -/
theorem setRowReadsBack : Obligations.SetRowReadsBack := by
  unfold Obligations.SetRowReadsBack
  intro row v s hs
  refine ⟨setRow row v s, rfl, fun h => ⟨?_, fun r hr => readRow_setRow_of_ne row v s hr⟩, fun h => ?_⟩
  · obtain ⟨hlow, hhigh⟩ := h
    rw [readRow_setRow row v s hs row.toNat (by omega), if_pos (by omega)]
  · rw [setRow_out_of_range row v s h]

/-! ## FLUSH -/

/-- Settles O30: FLUSH as one expression, for the rows from 0 to the last. -/
theorem flushSendsEveryRow : Obligations.FlushSendsEveryRow := by
  unfold Obligations.FlushSendsEveryRow
  rintro s ⟨hn, -, -, -, -, hw⟩
  have hne : List.range s.cfg.nRows ≠ [] := List.range_eq_nil.not.mpr (Nat.pos_iff_ne_zero.mp hn)
  have hflush : exec .flush s = .next ((List.range s.cfg.nRows).foldl flushRow s) := rfl
  rw [hflush, foldl_flushRow_eq _ s hw hne, List.getLast_range, rowFrames, List.flatMap_map]

/-- With the wire values of R6, the frames depend on the rows, their number and the write tag alone (R115). -/
theorem flushFrames_eq_of_buffer {s₁ s₂ : State} (hw₁ : s₁.cfg.FixedWire) (hw₂ : s₂.cfg.FixedWire)
    (hrows : s₁.rows = s₂.rows) (hn : s₁.cfg.nRows = s₂.cfg.nRows) (htag : s₁.cfg.writeTag = s₂.cfg.writeTag) :
    flushFrames s₁ = flushFrames s₂ := by
  simp only [flushFrames, rowFrames, readRow, dataFrameBits_eq _ hw₁, dataFrameBits_eq _ hw₂, hrows, hn, htag]

/-- Settles O32: what FLUSH appends is a function of the buffer, the write tag and the number of rows, and neither FLUSH
nor an operation that writes no row changes these. -/
theorem flushDependsOnTheBufferAlone : Obligations.FlushDependsOnTheBufferAlone := by
  unfold Obligations.FlushDependsOnTheBufferAlone
  refine ⟨fun s₁ s₂ hw₁ hw₂ hrows hn htag => ?_, fun i s t hw hi ht => ?_, fun s t v between hw ht hb hv => ?_⟩
  · obtain ⟨t₁, ht₁, htrace₁⟩ := exec_flush_trace s₁ hw₁
    obtain ⟨t₂, ht₂, htrace₂⟩ := exec_flush_trace s₂ hw₂
    rw [← flushFrames_eq_of_buffer hw₁ hw₂ hrows hn htag] at htrace₂
    exact ⟨t₁, t₂, _, ht₁, ht₂, htrace₁, htrace₂⟩
  · obtain ⟨u, hu, hkeep⟩ := exec_keeps_buffer i s hw hi
    obtain rfl := Host.Outcome.next.inj (hu.symm.trans ht)
    exact hkeep
  · have hall : execAll (.flush :: between) s = .next v := by simpa only [execAll, ht] using hv
    obtain ⟨hrows, hcfg⟩ := execAll_keeps_buffer hw (List.forall_mem_cons.mpr ⟨rfl, hb⟩) hall
    obtain ⟨t', ht', htrace⟩ := exec_flush_trace s hw
    obtain rfl := Host.Outcome.next.inj (ht'.symm.trans ht)
    obtain ⟨u, hu, hutrace⟩ := exec_flush_trace v (hcfg ▸ hw)
    rw [flushFrames_congr hrows hcfg] at hutrace
    exact ⟨u, _, htrace, hu, hutrace⟩

/-- Bits 3 to 8 of a data frame are its wire address (R67). -/
theorem dataFrameBits_addressField (cfg : Config) (h : cfg.FixedWire) (m : Tag) (a : Nat) (d : Byte) :
    ((dataFrameBits cfg m a d).drop 3).take 6 = binBits 6 a := by
  rw [dataFrameBits_eq cfg h, List.append_assoc, List.drop_left' (binBits_length 3 _),
    List.take_left' (binBits_length 6 _)]

/-- Rows 32 apart have chip addresses 64 apart, which are one wire address (R93). -/
theorem binBits_six_row_add_32 (r : Nat) : binBits 6 (2 * (r + 32)) = binBits 6 (2 * r) := by
  have hmod : 2 * (r + 32) % 2 ^ 6 = 2 * r % 2 ^ 6 := by omega
  rw [← binBits_mod, hmod, binBits_mod]

/-- Settles O34: both frames are received as sent, with the low six bits of addresses that differ by 64. -/
theorem flushAddressesWrapAt32Rows : Obligations.FlushAddressesWrapAt32Rows := by
  unfold Obligations.FlushAddressesWrapAt32Rows
  intro s data r _ hw hr
  obtain ⟨t, ht, htrace⟩ := exec_flush_trace s hw
  have hframe {k : Nat} (hk : k < s.cfg.nRows) :
      (receivedFrames none data ((flushFrames s).flatMap frameEvents))[k]? =
        some (dataFrameBits s.cfg s.cfg.writeTag (2 * k) (readRow k s)) := by
    rw [receivedFrames_flatMap, flushFrames_getElem? s hk]
  refine ⟨t, _, _, _, ht, htrace, hframe (by omega), hframe hr, ?_⟩
  rw [dataFrameBits_addressField _ hw, dataFrameBits_addressField _ hw, binBits_six_row_add_32]
  exact ⟨rfl, rfl⟩

/-! ## SET_ON and SET_OFF -/

/-- A command whose code the ghost state does not watch leaves the ghost flags and adds no ON_BEFORE_CONFIG (R168). -/
theorem afterCommandFrame_ghost_of_unwatched {c : Byte} (p : Bool) {s : State}
    (h : c ∉ [s.cfg.cmdOsc, s.cfg.cmdBias, s.cfg.cmdLcdOn]) :
    (afterCommandFrame c p s).pinsReady = s.pinsReady ∧ (afterCommandFrame c p s).oscSent = s.oscSent ∧
      (afterCommandFrame c p s).biasSent = s.biasSent ∧
      (afterCommandFrame c p s).haz.onBeforeConfig = s.haz.onBeforeConfig := by
  simp only [List.mem_cons, List.not_mem_nil, or_false, not_or] at h
  obtain ⟨hosc, hbias, hon⟩ := h
  simp [afterCommandFrame, hosc, hbias, hon]

/-- Settles O35: each is one command frame, and SET_OFF's code is unwatched by the premise. -/
theorem setOnAndSetOffSendTheirCommand : Obligations.SetOnAndSetOffSendTheirCommand := by
  unfold Obligations.SetOnAndSetOffSendTheirCommand
  intro s hw
  have hoff : exec .setOff s = .next (afterCommandFrame s.cfg.cmdLcdOff s.cfg.padBit s) :=
    congrArg Host.Outcome.next (sendCommand_eq _ s hw)
  refine ⟨congrArg Host.Outcome.next (sendCommand_eq _ s hw), hoff, fun hcode t ht => ?_⟩
  obtain rfl := Host.Outcome.next.inj (hoff.symm.trans ht)
  exact afterCommandFrame_ghost_of_unwatched _ hcode

end Sys2Proof.Laws
end

/-! The family of the character translator (O36, O37): SET_CHAR is a SET_ROW of the glyph its character selects. -/

section
namespace Sys2Proof.Laws

open Sys2Proof.Machine

/-- SET_CHAR writes through SET_ROW (R132). -/
theorem exec_setChar (position : Int) (c : Byte) (dp : Bool) (s : State) :
    exec (.setChar position c dp) s = exec (.setRow position (glyph s.cfg c dp)) s := rfl

/-- The lookup gives the map's entry at the code, or that at the blank index for a code outside the map (R130). -/
theorem readMap_mapIndex {cfg : Config} {c entry : Byte}
    (h : cfg.charMap[c.toNat]? = some entry ∨
      cfg.mapSize ≤ c.toNat ∧ cfg.charMap[cfg.blankIndex]? = some entry) :
    readMap cfg (mapIndex cfg c) = entry := by
  rw [readMap, List.getD_eq_getElem?_getD]
  rcases h with hentry | ⟨hout, hblank⟩
  · have hin : c.toNat < cfg.mapSize := (List.getElem?_eq_some_iff.mp hentry).1
    rw [mapIndex, if_pos hin, hentry, Option.getD_some]
  · rw [mapIndex, if_neg hout.not_gt, hblank, Option.getD_some]

/-- Settles O36: the row reads back the byte written through SET_ROW, which is the glyph of the map's entry. -/
theorem setCharWritesTheGlyph : Obligations.SetCharWritesTheGlyph := by
  unfold Obligations.SetCharWritesTheGlyph
  intro s position c dp entry hs hlow hhigh hentry
  obtain ⟨t, ht, hin, _⟩ := setRowReadsBack position (glyph s.cfg c dp) s hs
  obtain ⟨hread, hothers⟩ := hin ⟨hlow, hhigh⟩
  rw [glyph, readMap_mapIndex hentry] at hread
  exact ⟨t, (exec_setChar position c dp s).trans ht, hread, hothers⟩

/-- Settles O37: SET_ROW's range check, for the glyph. -/
theorem setCharChangesOneRowOrNothing : Obligations.SetCharChangesOneRowOrNothing := by
  unfold Obligations.SetCharChangesOneRowOrNothing
  intro position c dp s
  rw [exec_setChar]
  exact setRowWritesItsRowOrNothing position (glyph s.cfg c dp) s

end Sys2Proof.Laws
end

/-! The family of the string layout (O39 to O41, O43 to O45): the loop of SET_STRING is the placing of digits, one row
for each. -/

section
namespace Sys2Proof.Laws

open Sys2Proof.Machine

/-! ## The loop's start position, bound and positions -/

/-- Settles O43: the start position is no argument of the loop. -/
theorem startPositionHasNoEffect : Obligations.StartPositionHasNoEffect := by
  unfold Obligations.StartPositionHasNoEffect
  exact fun _ _ _ _ => rfl

/-- Settles O45: both bounds let the loop get to the end of its text, which reads as the terminator. -/
theorem layoutEndsWithinTheText : Obligations.LayoutEndsWithinTheText := by
  unfold Obligations.LayoutEndsWithinTheText
  intro cfg text numeric fuel s hpoint hfuel
  exact layout_congr hpoint (fun _ _ => rfl) (textAt_ge cfg text text.length le_rfl) 0 s (Nat.zero_le _)
    (by omega) (by omega)

/-- A slot is never above the last position. -/
theorem setChar_slotPosition_rows_above (cfg : Config) (slot : Nat) (c : Byte) (dp : Bool) (s : State) {r : Nat}
    (h : cfg.lastPos < r) : (setChar (slotPosition cfg slot) c dp s).rows[r]? = s.rows[r]? := by
  have hne : (slotPosition cfg slot).toNat ≠ r := by
    unfold slotPosition
    omega
  rw [setChar, setRow_rows]
  split_ifs
  · exact List.getElem?_set_ne hne
  · rfl

/-- The loop leaves the rows above the last position as they were, whatever its text and its bound (R151). -/
theorem layout_rows_above (cfg : Config) (text : List Byte) (numeric : Bool) (fuel slot j : Nat) (s : State) {r : Nat}
    (h : cfg.lastPos < r) : (layout cfg text numeric fuel slot j s).rows[r]? = s.rows[r]? := by
  induction fuel generalizing slot j s with
  | zero => rfl
  | succ fuel ih =>
    unfold layout
    dsimp only
    split_ifs <;> simp only [ih, setChar_slotPosition_rows_above _ _ _ _ _ h]

/-- Settles O44: the loop writes rows only, and none above the last position. -/
theorem setStringStaysInItsPositions : Obligations.SetStringStaysInItsPositions := by
  unfold Obligations.SetStringStaysInItsPositions
  intro start numeric s
  obtain ⟨rows, hlen, heq⟩ := layout_only_rows s.cfg s.textPort numeric (s.textPort.length + 1) 0 0 s
  refine ⟨rows, congrArg Host.Outcome.next heq, hlen, fun r hr => ?_⟩
  rw [← layout_rows_above s.cfg s.textPort numeric (s.textPort.length + 1) 0 0 s hr, heq]

/-! ## Digits in their slots -/

/-- Of two writes to one row the later one stays. -/
theorem setRow_setRow (row : Int) (v w : Byte) (s : State) : setRow row v (setRow row w s) = setRow row v s := by
  by_cases h : 0 ≤ row ∧ row < (s.cfg.nRows : Int)
  · simp [setRow, h, List.set_set]
  · rw [setRow_out_of_range row w s h]

/-- A character put on a position replaces the one there (R131). -/
theorem setChar_setChar (p : Int) (c c' : Byte) (dp dp' : Bool) (s : State) :
    setChar p c dp (setChar p c' dp' s) = setChar p c dp s := by
  rw [setChar, setChar, setRow_cfg, setRow_setRow, setChar]

@[simp] theorem setChar_cfg (p : Int) (c : Byte) (dp : Bool) (s : State) : (setChar p c dp s).cfg = s.cfg :=
  setRow_cfg _ _ s

theorem rowsWf_setChar (p : Int) (c : Byte) (dp : Bool) {s : State} (hs : RowsWf s) : RowsWf (setChar p c dp s) := by
  rw [RowsWf, setChar_cfg, setChar, setRow_rows_length, hs]

/-- `s` with the digits, each a character and its decimal-point flag, put in the slots from slot 0 on. -/
def showDigits (digits : List (Byte × Bool)) (s : State) : State :=
  digits.zipIdx.foldl (fun t d => setChar (slotPosition s.cfg d.2) d.1.1 d.1.2 t) s

@[simp] theorem showDigits_nil (s : State) : showDigits [] s = s := rfl

/-- The last digit is put on top of the ones before it. -/
theorem showDigits_concat (digits : List (Byte × Bool)) (c : Byte) (dp : Bool) (s : State) :
    showDigits (digits ++ [(c, dp)]) s =
      setChar (slotPosition s.cfg digits.length) c dp (showDigits digits s) := by
  simp [showDigits, List.zipIdx_append]

@[simp] theorem showDigits_cfg (digits : List (Byte × Bool)) (s : State) : (showDigits digits s).cfg = s.cfg := by
  induction digits using List.reverseRecOn with
  | nil => rfl
  | append_singleton digits d ih => rw [showDigits_concat, setChar_cfg, ih]

theorem rowsWf_showDigits (digits : List (Byte × Bool)) {s : State} (hs : RowsWf s) :
    RowsWf (showDigits digits s) := by
  induction digits using List.reverseRecOn with
  | nil => exact hs
  | append_singleton digits d ih => exact showDigits_concat digits d.1 d.2 s ▸ rowsWf_setChar _ _ _ ih

/-- What row `r` holds once the digits are shown: the glyph of the digit of its slot, or what it held before (R140). -/
def shownRow (digits : List (Byte × Bool)) (s : State) (r : Nat) : Byte :=
  if r ≤ s.cfg.lastPos then
    match digits[s.cfg.lastPos - r]? with
    | some (c, dp) => glyph s.cfg c dp
    | none => readRow r s
  else readRow r s

theorem shownRow_of_digit {digits : List (Byte × Bool)} {s : State} {r : Nat} {c : Byte} {dp : Bool}
    (hr : r ≤ s.cfg.lastPos) (h : digits[s.cfg.lastPos - r]? = some (c, dp)) :
    shownRow digits s r = glyph s.cfg c dp := by
  simp [shownRow, hr, h]

theorem shownRow_of_no_digit {digits : List (Byte × Bool)} {s : State} {r : Nat}
    (h : r ≤ s.cfg.lastPos → digits.length ≤ s.cfg.lastPos - r) : shownRow digits s r = readRow r s := by
  by_cases hr : r ≤ s.cfg.lastPos
  · simp [shownRow, hr, List.getElem?_eq_none (h hr)]
  · simp [shownRow, hr]

/-- One digit more changes the row of its slot. -/
theorem shownRow_concat (digits : List (Byte × Bool)) (c : Byte) (dp : Bool) (s : State) (r : Nat) :
    shownRow (digits ++ [(c, dp)]) s r =
      if slotPosition s.cfg digits.length = (r : Int) then glyph s.cfg c dp else shownRow digits s r := by
  by_cases hr : r ≤ s.cfg.lastPos
  · rcases lt_trichotomy (s.cfg.lastPos - r) digits.length with hlt | heq | hgt
    · rw [if_neg (by unfold slotPosition; omega)]
      simp [shownRow, List.getElem?_append_left hlt]
    · rw [if_pos (by unfold slotPosition; omega)]
      exact shownRow_of_digit hr (by simp [heq])
    · rw [if_neg (by unfold slotPosition; omega), shownRow_of_no_digit (by simp; omega),
        shownRow_of_no_digit (by omega)]
  · rw [if_neg (by unfold slotPosition; omega)]
    simp [shownRow, hr]

/-- Reading a row once the digits are shown. -/
theorem readRow_showDigits (digits : List (Byte × Bool)) (s : State) (hs : RowsWf s) {r : Nat} (hr : r < s.cfg.nRows) :
    readRow r (showDigits digits s) = shownRow digits s r := by
  induction digits using List.reverseRecOn with
  | nil => exact (shownRow_of_no_digit (by simp)).symm
  | append_singleton digits d ih =>
    rw [showDigits_concat, shownRow_concat, setChar,
      readRow_setRow _ _ _ (rowsWf_showDigits digits hs) r (by simpa using hr), showDigits_cfg, ih]

/-! ## The loop and the digits it places -/

section
variable {cfg : Config} {text : List Byte} {numeric : Bool} (fuel : Nat) {slot : Nat} (j : Nat) (s : State)

/-- Nothing is read once the slots are full (R147). -/
theorem layout_full (h : cfg.slots ≤ slot) : layout cfg text numeric fuel slot j s = s := by
  cases fuel with
  | zero => rfl
  | succ fuel => simp [layout, h.not_gt]

/-- A '.' before any other character is a leading zero (R142). -/
theorem layout_leadingPoint (h : 0 < cfg.slots) (hc : textAt cfg text j = cfg.dpChar) :
    layout cfg text true (fuel + 1) 0 j s =
      layout cfg text true fuel 1 (j + 1) (setChar (slotPosition cfg 0) cfg.zeroChar true s) := by
  simp [layout, h, hc]

/-- A '.' after another character goes into that one's slot (R143, R144). -/
theorem layout_foldedPoint (h : slot + 1 < cfg.slots) (hc : textAt cfg text j = cfg.dpChar) :
    layout cfg text true (fuel + 1) (slot + 1) j s =
      layout cfg text true fuel (slot + 1) (j + 1)
        (setChar (slotPosition cfg slot) (textAt cfg text (j - 1)) true s) := by
  simp [layout, h, hc]

/-- Any other character takes the next slot (R146). -/
theorem layout_ordinary (h : slot < cfg.slots) (hfold : ¬(numeric = true ∧ textAt cfg text j = cfg.dpChar))
    (hend : textAt cfg text j ≠ cfg.terminator) :
    layout cfg text numeric (fuel + 1) slot j s =
      layout cfg text numeric fuel (slot + 1) (j + 1)
        (setChar (slotPosition cfg slot) (textAt cfg text j) false s) := by
  simp [layout, h, hfold, hend]

end

/-- The loop, begun at text index `j` with the digits placed so far shown, shows the digits of the whole text: each
iteration places what `placeText` does. -/
theorem layout_showDigits {s : State} {numeric : Bool} {text : List Byte}
    (hpoint : numeric = false ∨ s.cfg.PointIsNoTerminator) {rest : List Byte} {j : Nat} (hrest : text.drop j = rest)
    {placed : List (Byte × Bool)} (hlen : placed.length ≤ s.cfg.slots) {prev : Byte}
    (hprev : placed ≠ [] → textAt s.cfg text (j - 1) = prev) :
    layout s.cfg text numeric (rest.length + 1) placed.length j (showDigits placed s) =
      showDigits (placeText s.cfg numeric placed prev rest) s := by
  induction rest generalizing j placed prev with
  | nil =>
    have hend : textAt s.cfg text j = s.cfg.terminator := textAt_ge _ _ _ (List.drop_eq_nil_iff.mp hrest)
    exact layout_terminator _ _ _ hpoint hend
  | cons c rest ih =>
    have hj : j < text.length := by
      by_contra hge
      simp [List.drop_eq_nil_of_le (not_lt.mp hge)] at hrest
    obtain ⟨hget, hdrop⟩ := List.cons.inj ((List.drop_eq_getElem_cons hj).symm.trans hrest)
    have hc : textAt s.cfg text j = c := (textAt_lt _ _ _ hj).trans hget
    have hnext {placed' : List (Byte × Bool)} (h : placed'.length ≤ s.cfg.slots) := ih hdrop h fun _ => hc
    rw [List.length_cons, placeText]
    split_ifs with hfull hfold hnil hend
    · exact layout_full _ _ _ hfull.ge
    · -- a leading '.'
      obtain ⟨rfl, rfl⟩ := hfold
      subst hnil
      have hslot : 0 < s.cfg.slots := by simp at hfull; omega
      rw [List.length_nil, layout_leadingPoint _ _ _ hslot hc]
      exact hnext (placed' := [(s.cfg.zeroChar, true)]) hslot
    · -- a '.' after a digit, the last one placed
      obtain ⟨rfl, rfl⟩ := hfold
      obtain ⟨before, d, rfl⟩ := (List.eq_nil_or_concat' placed).resolve_left hnil
      rw [List.length_append, List.length_singleton] at hlen hfull ⊢
      rw [layout_foldedPoint _ _ _ (by omega) hc, hprev hnil, showDigits_concat, setChar_setChar,
        ← showDigits_concat, List.dropLast_concat]
      simpa using hnext (placed' := before ++ [(prev, true)]) (by simpa using hlen)
    · exact layout_terminator _ _ _ hpoint (hc.trans hend)
    · rw [layout_ordinary _ _ _ (by omega) (hc ▸ hfold) (hc ▸ hend), hc, ← showDigits_concat]
      simpa using hnext (placed' := placed ++ [(c, false)]) (by simp; omega)

/-- SET_STRING shows the digits its text places. -/
theorem exec_setString (s : State) (start : Int) (numeric : Bool)
    (hpoint : numeric = false ∨ s.cfg.PointIsNoTerminator) :
    exec (.setString start numeric) s = .next (showDigits (placedChars s.cfg numeric s.textPort) s) :=
  congrArg Host.Outcome.next (layout_showDigits (placed := []) hpoint rfl (Nat.zero_le _) (absurd rfl))

/-- What every row holds after SET_STRING, by the digits its text places. -/
theorem exec_setString_readRow {s : State} (start : Int) {numeric : Bool} (hs : RowsWf s)
    (hpoint : numeric = false ∨ s.cfg.PointIsNoTerminator) {digits : List (Byte × Bool)}
    (hdigits : placedChars s.cfg numeric s.textPort = digits) :
    ∃ t, exec (.setString start numeric) s = .next t ∧ ∀ r, r < s.cfg.nRows → readRow r t = shownRow digits s r :=
  ⟨_, exec_setString s start numeric hpoint, fun _ hr => hdigits ▸ readRow_showDigits _ s hs hr⟩

/-- Settles O39: the rows show the digits the text places, and the loop writes rows only. -/
theorem setStringPlacesItsText : Obligations.SetStringPlacesItsText := by
  unfold Obligations.SetStringPlacesItsText
  intro s start numeric hs hpoint
  obtain ⟨t, ht, hread⟩ := exec_setString_readRow start hs hpoint rfl
  obtain ⟨rows, hlen, heq⟩ := layout_only_rows s.cfg s.textPort numeric (s.textPort.length + 1) 0 0 s
  obtain rfl : { s with rows := rows } = t := heq.symm.trans (Host.Outcome.next.inj ht)
  exact ⟨_, ht, rfl, hlen, hread⟩

/-! ## Texts without a folded point, and the three scenarios -/

/-- A text without a folded '.' places its characters before the terminator, as many as there are free slots. -/
theorem placeText_ordinary {cfg : Config} {numeric : Bool} {text : List Byte}
    (h : numeric = false ∨ cfg.dpChar ∉ text) {placed : List (Byte × Bool)} (hlen : placed.length ≤ cfg.slots)
    (prev : Byte) :
    placeText cfg numeric placed prev text =
      placed ++ ((text.takeWhile fun c => c != cfg.terminator).take (cfg.slots - placed.length)).map (·, false) := by
  induction text generalizing placed prev with
  | nil => simp [placeText]
  | cons c text ih =>
    have hfold : ¬(numeric = true ∧ c = cfg.dpChar) := by
      rintro ⟨rfl, rfl⟩
      simp at h
    have htext : numeric = false ∨ cfg.dpChar ∉ text := h.imp_right (mt (List.mem_cons_of_mem c))
    rw [placeText, if_neg hfold]
    split_ifs with hfull hend
    · simp [hfull]
    · simp [hend]
    · obtain ⟨free, hfree⟩ : ∃ free, cfg.slots - placed.length = free + 1 :=
        ⟨cfg.slots - placed.length - 1, by omega⟩
      have hrest : cfg.slots - (placed ++ [(c, false)]).length = free := by simp; omega
      rw [ih htext (by simp; omega), hrest, hfree, List.takeWhile_cons_of_pos (by simpa using hend)]
      simp

/-- Settles O41: the digits are the characters before the terminator, each without a decimal point. -/
theorem ordinaryTextFillsThePositions : Obligations.OrdinaryTextFillsThePositions := by
  unfold Obligations.OrdinaryTextFillsThePositions
  intro s start numeric hs hplain
  obtain ⟨t, ht, hread⟩ := exec_setString_readRow start hs (hplain.imp_right And.right)
    (placeText_ordinary (hplain.imp_right And.left) (Nat.zero_le _) _)
  refine ⟨t, ht, fun r hr => ?_⟩
  rw [hread r hr, List.nil_append, List.length_nil, Nat.sub_zero]
  split_ifs with hpos
  · split
    · next c hc => exact shownRow_of_digit hpos (by rw [List.getElem?_map, hc, Option.map_some])
    · next hnone =>
      exact shownRow_of_no_digit fun _ => (List.length_map _).trans_le (List.getElem?_eq_none_iff.mp hnone)
  · exact shownRow_of_no_digit (absurd · hpos)

/-- Settles O40: the digits of each of the three texts, and the rows that show them. -/
theorem setStringScenarios : Obligations.SetStringScenarios := by
  unfold Obligations.SetStringScenarios
  rintro s hs hrows hslots ⟨hdp, hzero, hterm⟩
  have hlast : s.cfg.lastPos = 5 := by rw [Config.lastPos, hslots]
  have hpoint : s.cfg.PointIsNoTerminator := by
    rw [Config.PointIsNoTerminator, hdp, hterm]
    decide
  have hshown {numeric : Bool} {digits : List (Byte × Bool)}
      (hdigits : placedChars s.cfg numeric s.textPort = digits) :
      ∃ t, exec (.setString 0 numeric) s = .next t ∧ ∀ r ≤ 5, readRow r t = shownRow digits s r :=
    (exec_setString_readRow 0 hs (.inr hpoint) hdigits).imp
      fun _ ⟨ht, hread⟩ => ⟨ht, fun r hr => hread r (by omega)⟩
  refine ⟨fun htext => ?_, fun htext => ?_, fun htext => ?_⟩
  · have hdigits : placedChars s.cfg false s.textPort =
        [(0x54#8, false), (0x65#8, false), (0x73#8, false), (0x74#8, false)] := by
      simp [placedChars, placeText, htext, hslots, hterm]
    obtain ⟨t, ht, hread⟩ := hshown hdigits
    exact ⟨t, ht, by simp [hread, shownRow, hlast]⟩
  · have hdigits : placedChars s.cfg true s.textPort = [(0x31#8, true), (0x35#8, false)] := by
      simp [placedChars, placeText, htext, hslots, hdp, hterm]
    obtain ⟨t, ht, hread⟩ := hshown hdigits
    refine ⟨t, ht, by simp [hread, shownRow, hlast], by simp [hread, shownRow, hlast], fun r hr => ?_⟩
    rw [hread r (by omega)]
    exact shownRow_of_no_digit (by simp; omega)
  · have hdigits : placedChars s.cfg true s.textPort = [(0x30#8, true), (0x35#8, false)] := by
      simp [placedChars, placeText, htext, hslots, hdp, hzero, hterm]
    obtain ⟨t, ht, hread⟩ := hshown hdigits
    exact ⟨t, ht, by simp [hread, shownRow, hlast]⟩

end Sys2Proof.Laws
end

/-! The family of the exceptions (O12, O47, O50, O57): every operation completes, which ones are refused, which ones add
a mark, and the states in which none does. -/

section
namespace Sys2Proof.Laws

open Sys2Proof.Machine

/-! ## Brought-up states -/

/-- Settles O57: a step keeps a state safely up, and INIT brings it there. -/
theorem broughtUpStatesStayFreeOfHazards : Obligations.BroughtUpStatesStayFreeOfHazards := by
  unfold Obligations.BroughtUpStatesStayFreeOfHazards
  constructor
  · intro s t hw hup hs ht
    obtain ⟨-, hup', hs'⟩ := step_keeps_safelyUp ⟨hw, hup, hs⟩ ht
    exact ⟨hup', hs'⟩
  · intro s hw hd hs
    obtain ⟨-, hup, hs'⟩ := safelyUp_afterInit hw hd hs
    exact ⟨afterInit s, exec_init_eq s hw, hup, hs'⟩

/-! ## Refusals -/

/-- The operations that are turned down: a reserved request, and a SEND_BITS with a count above 8 (R162). -/
def TurnedDown (i : Instr) : Prop :=
  (∃ p, i = .reservedOp0 p) ∨ (∃ l p, i = .reservedOpAB l p) ∨ (∃ l p, i = .reservedOpCF l p) ∨
    ∃ v n, i = .sendBits v n ∧ 8 < n

theorem exec_of_turnedDown {i : Instr} (s : State) (h : TurnedDown i) : exec i s = .next (refuse s) := by
  rcases h with ⟨p, rfl⟩ | ⟨l, p, rfl⟩ | ⟨l, p, rfl⟩ | ⟨v, n, rfl, hn⟩
  · rfl
  · rfl
  · rfl
  · exact sendBitsAboveEightIsRefused v n s hn

theorem commandFrame_refused (c : Byte) (p : Bool) (s : State) (hw : s.cfg.FixedWire) :
    (commandFrame c p s).refused = s.refused := by
  rw [commandFrame_eq c p s hw, afterCommandFrame]

theorem sendData_refused (a : Nat) (d : Byte) (m : Tag) (s : State) (hw : s.cfg.FixedWire) :
    (sendData a d m s).refused = s.refused := by
  rw [sendData_eq a d m s hw, afterDataFrame]

theorem foldl_flushRow_refused (rs : List Nat) (s : State) (hw : s.cfg.FixedWire) :
    (rs.foldl flushRow s).refused = s.refused := by
  by_cases h : rs = []
  · rw [h, List.foldl_nil]
  · rw [foldl_flushRow_eq rs s hw h]

/-- The fields of a frame have at most 8 bits (R6), so no operation meets the refusal of SEND_BITS inside a frame. -/
theorem exec_keeps_refused (i : Instr) (s : State) (hw : s.cfg.FixedWire) (h : ¬TurnedDown i) :
    ∃ t, exec i s = .next t ∧ t.refused = s.refused := by
  cases i with
  | setRow _ _ | setChar _ _ _ | setString _ _ =>
    exact (exec_only_rows _ s (by rfl)).elim fun _ ht => ⟨_, ht, rfl⟩
  | init => exact ⟨_, exec_init_eq s hw, by rw [afterInit_eq]⟩
  | flush => exact ⟨_, rfl, foldl_flushRow_refused _ s hw⟩
  | setOn | setOff | sendCommand _ | wCmd _ _ | cmdSysEn _ | cmdOsc _ | cmdBias _ | cmdLcdOn _ | cmdLcdOff _ =>
    exact ⟨_, rfl, commandFrame_refused _ _ s hw⟩
  | sendData _ _ _ | wWr _ _ _ => exact ⟨_, rfl, sendData_refused _ _ _ s hw⟩
  | reservedOp0 p => exact absurd (.inl ⟨p, rfl⟩) h
  | reservedOpAB l p => exact absurd (.inr (.inl ⟨l, p, rfl⟩)) h
  | reservedOpCF l p => exact absurd (.inr (.inr (.inl ⟨l, p, rfl⟩))) h
  | sendBits v n =>
    have hn : n ≤ 8 := Nat.le_of_not_lt fun hn => h (.inr (.inr (.inr ⟨v, n, rfl, hn⟩)))
    exact ⟨_, exec_sendBits_of_le v n s hn, rfl⟩

/-- Settles O47: an operation that is turned down sets the flag, and every other one leaves it. -/
theorem onlyReservedRequestsAreRefused : Obligations.OnlyReservedRequestsAreRefused := by
  unfold Obligations.OnlyReservedRequestsAreRefused
  intro i s t hw ht
  change t.refused = true ↔ s.refused = true ∨ TurnedDown i
  by_cases h : TurnedDown i
  · obtain rfl := Host.Outcome.next.inj ((exec_of_turnedDown s h).symm.trans ht)
    simp [h]
  · obtain ⟨u, hu, hr⟩ := exec_keeps_refused i s hw h
    obtain rfl := Host.Outcome.next.inj (hu.symm.trans ht)
    simp [h, hr]

/-! ## Marks -/

/-- The marks of `t` are those of `s` and what R168 adds to them: PRE_INIT_TRANSMIT for pin events before the pins are
ready if there were such events, and ON_BEFORE_CONFIG for a display-on before oscillator and bias if there was one. -/
structure AddsMarks (s t : State) (transmits displaysOn : Prop) : Prop where
  preInitTransmit : t.haz.preInitTransmit = true ↔ s.haz.preInitTransmit = true ∨ (s.pinsReady = false ∧ transmits)
  onBeforeConfig : t.haz.onBeforeConfig = true ↔
    s.haz.onBeforeConfig = true ∨ (displaysOn ∧ ¬(s.oscSent = true ∧ s.biasSent = true))

theorem addsMarks_of_haz_eq {s t : State} (h : t.haz = s.haz) : AddsMarks s t False False := by
  constructor <;> simp [h]

theorem addsMarks_rows (s : State) (rows : List Byte) : AddsMarks s { s with rows := rows } False False :=
  addsMarks_of_haz_eq rfl

theorem addsMarks_of_hazAfterPins {s t : State} (h : t.haz = hazAfterPins s) : AddsMarks s t True False := by
  constructor <;> simp [h, hazAfterPins]

theorem addsMarks_sendCommand (c : Byte) (s : State) (hw : s.cfg.FixedWire) :
    AddsMarks s (sendCommand c s) True (c = s.cfg.cmdLcdOn) := by
  rw [sendCommand_eq c s hw]
  have a := appendsItem_afterCommandFrame c s
  exact ⟨by simpa using a.preInitTransmit, by simpa using a.onBeforeConfig⟩

/-- The operations of the host that emit pin events, but for INIT, which sets the pins up first (R181). -/
def Transmits (i : Instr) : Prop :=
  i = .flush ∨ i = .setOn ∨ i = .setOff ∨ (∃ c, i = .sendCommand c) ∨ ∃ a v m, i = .sendData a v m

/-- SET_ON and a raw display-on (R183). -/
def DisplaysOn (cfg : Config) (i : Instr) : Prop := i = .setOn ∨ i = .sendCommand cfg.cmdLcdOn

/-- What each operation of the host surface adds to the marks. -/
theorem exec_addsMarks (i : Instr) (s : State) (hi : i.onHostSurface = true) (hl : s.cfg.Legal)
    (hd : s.cfg.DistinctCodes) : ∃ t, exec i s = .next t ∧ AddsMarks s t (Transmits i) (DisplaysOn s.cfg i) := by
  obtain ⟨hn, -, -, -, -, hw⟩ := hl
  cases i with
  | init =>
    exact ⟨_, exec_init_eq s hw, by simpa [Transmits, DisplaysOn] using addsMarks_of_haz_eq (afterInit_haz s hd)⟩
  | setRow _ _ | setChar _ _ _ | setString _ _ =>
    exact (exec_only_rows _ s (by rfl)).elim fun rows ht =>
      ⟨_, ht, by simpa [Transmits, DisplaysOn] using addsMarks_rows s rows⟩
  | flush =>
    have hne : List.range s.cfg.nRows ≠ [] := List.range_eq_nil.not.mpr (Nat.pos_iff_ne_zero.mp hn)
    have hflush : ((List.range s.cfg.nRows).foldl flushRow s).haz = hazAfterPins s := by
      rw [foldl_flushRow_eq _ s hw hne]
    exact ⟨_, rfl, by simpa [Transmits, DisplaysOn] using addsMarks_of_hazAfterPins hflush⟩
  | setOn => exact ⟨_, rfl, by simpa [Transmits, DisplaysOn] using addsMarks_sendCommand s.cfg.cmdLcdOn s hw⟩
  | setOff =>
    have hoff : s.cfg.cmdLcdOff ≠ s.cfg.cmdLcdOn := fun h => by simp [h] at hd
    exact ⟨_, rfl, by simpa [Transmits, DisplaysOn, hoff] using addsMarks_sendCommand s.cfg.cmdLcdOff s hw⟩
  | sendCommand c => exact ⟨_, rfl, by simpa [Transmits, DisplaysOn] using addsMarks_sendCommand c s hw⟩
  | sendData a v m =>
    have hdata : (sendData a v m s).haz = hazAfterPins s := by rw [sendData_eq a v m s hw, afterDataFrame]
    exact ⟨_, rfl, by simpa [Transmits, DisplaysOn] using addsMarks_of_hazAfterPins hdata⟩
  | reservedOp0 _ | reservedOpAB _ _ | reservedOpCF _ _ =>
    exact ⟨_, rfl, by simpa [Transmits, DisplaysOn] using addsMarks_of_haz_eq (refuse_haz s)⟩
  | sendBits _ _ | wCmd _ _ | wWr _ _ _ | cmdSysEn _ | cmdOsc _ | cmdBias _ | cmdLcdOn _ | cmdLcdOff _ => cases hi

/-- Settles O50: an operation answers one state, with the marks its row adds. -/
theorem hazardsComeOnlyFromTheListedOperations : Obligations.HazardsComeOnlyFromTheListedOperations := by
  unfold Obligations.HazardsComeOnlyFromTheListedOperations
  intro i s t hi hl hd ht
  obtain ⟨u, hu, hpre, hon⟩ := exec_addsMarks i s hi hl hd
  obtain rfl := Host.Outcome.next.inj (hu.symm.trans ht)
  exact ⟨hpre, hon⟩

/-! ## Completion -/

/-- Every meaning is a next state, a refused one too (R160, R162). -/
theorem exec_completes (i : Instr) (s : State) : ∃ t, exec i s = .next t := by
  cases i <;> exact ⟨_, rfl⟩

/-- Settles O12: a step waits, runs an operation, or refuses a word, and each answers a next state. -/
theorem everyOperationCompletes : Obligations.EveryOperationCompletes := by
  unfold Obligations.EveryOperationCompletes
  refine ⟨exec_completes, fun s => ?_⟩
  rcases fetch_cases s with ⟨-, hf⟩ | ⟨r, rest, -, hf⟩
  · exact ⟨s, step_of_fetch_none hf⟩
  · cases hd : decode r.word with
    | ok i => exact step_of_decode_ok hf hd ▸ exec_completes i _
    | error e => exact ⟨_, step_of_decode_error hf hd⟩

end Sys2Proof.Laws
end

/-! The family of reset and hazards, the event counts (O48): how many events each operation appends to the trace. -/

section
namespace Sys2Proof.Laws

open Sys2Proof.Machine

/-! ## Appended events, counted -/

/-- The trace of `t` is that of `s` and `n` events after it. -/
def AppendsEvents (n : Nat) (s t : State) : Prop :=
  ∃ events, t.trace = s.trace ++ events ∧ events.length = n

theorem appendsEvents_zero {s t : State} (h : t.trace = s.trace) : AppendsEvents 0 s t :=
  ⟨[], by rw [h, List.append_nil], rfl⟩

/-- A command frame has 12 bits, so 38 events (R101). -/
theorem commandFrame_appendsEvents (c : Byte) (p : Bool) (s : State) (hw : s.cfg.FixedWire) :
    AppendsEvents 38 s (commandFrame c p s) := by
  refine ⟨frameEvents (commandBits s.cfg c p), ?_, ?_⟩
  · rw [commandFrame_eq c p s hw, afterCommandFrame]
  · rw [frameEvents_length, commandBits_length _ hw]

/-- A data frame has 17 bits, so 53 events (R101). -/
theorem sendData_appendsEvents (a : Nat) (d : Byte) (m : Tag) (s : State) (hw : s.cfg.FixedWire) :
    AppendsEvents 53 s (sendData a d m s) := by
  refine ⟨frameEvents (dataFrameBits s.cfg m a d), ?_, ?_⟩
  · rw [sendData_eq a d m s hw, afterDataFrame]
  · rw [frameEvents_length, dataFrameBits_length _ hw]

/-- SEND_BITS appends three events a bit (R86), and none if it is refused (R162). -/
theorem sendBits_appendsEvents (v : Byte) (n : Nat) (s : State) :
    AppendsEvents (if n ≤ 8 then 3 * n else 0) s (sendBits v n s) := by
  split_ifs with h
  · refine ⟨bodyEvents (topBits v n), ?_, ?_⟩
    · rw [sendBits_eq v n s h]
    · rw [bodyEvents_length, topBits_length]
  · rw [sendBits_refused v n s (Nat.lt_of_not_le h)]
    exact appendsEvents_zero (refuse_trace s)

/-- The events of any number of frames of one length. -/
theorem flatMap_frameEvents_length {frames : List (List Bool)} {k : Nat} (h : ∀ bits ∈ frames, bits.length = k) :
    (frames.flatMap frameEvents).length = (2 + 3 * k) * frames.length := by
  induction frames with
  | nil => rfl
  | cons bits rest ih =>
    obtain ⟨hbits, hrest⟩ := List.forall_mem_cons.mp h
    rw [List.flatMap_cons, List.length_append, frameEvents_length, hbits, ih hrest, List.length_cons]
    ring

/-- INIT appends the pin setup and four command frames (R187). -/
theorem afterInit_appendsEvents (s : State) (hw : s.cfg.FixedWire) : AppendsEvents 153 s (afterInit s) := by
  refine ⟨_, afterInit_trace s, ?_⟩
  rw [List.length_cons, flatMap_frameEvents_length (k := 12) (by simp [commandBits_length _ hw])]
  simp [initCodes]

/-- FLUSH appends one data frame a row (R187). -/
theorem exec_flush_appendsEvents (s : State) (hw : s.cfg.FixedWire) :
    ∃ t, exec .flush s = .next t ∧ AppendsEvents (53 * s.cfg.nRows) s t := by
  obtain ⟨t, ht, htrace⟩ := exec_flush_trace s hw
  refine ⟨t, ht, _, htrace, ?_⟩
  have hbits : ∀ bits ∈ flushFrames s, bits.length = 17 := by
    simp [flushFrames, rowFrames, dataFrameBits_length _ hw]
  rw [flatMap_frameEvents_length hbits, flushFrames_length]

/-! ## Every operation -/

theorem exec_appendsEvents (i : Instr) (s : State) (hw : s.cfg.FixedWire) :
    ∃ t, exec i s = .next t ∧ AppendsEvents (eventCount s.cfg i) s t := by
  cases i with
  | setRow _ _ | setChar _ _ _ | setString _ _ =>
    exact (exec_only_rows _ s (by rfl)).elim fun _ ht => ⟨_, ht, appendsEvents_zero rfl⟩
  | init => exact ⟨_, exec_init_eq s hw, afterInit_appendsEvents s hw⟩
  | flush => exact exec_flush_appendsEvents s hw
  | setOn | setOff | sendCommand _ | wCmd _ _ | cmdSysEn _ | cmdOsc _ | cmdBias _ | cmdLcdOn _ | cmdLcdOff _ =>
    exact ⟨_, rfl, commandFrame_appendsEvents _ _ s hw⟩
  | sendData _ _ _ | wWr _ _ _ => exact ⟨_, rfl, sendData_appendsEvents _ _ _ s hw⟩
  | reservedOp0 _ | reservedOpAB _ _ | reservedOpCF _ _ => exact ⟨_, rfl, appendsEvents_zero (refuse_trace s)⟩
  | sendBits v n => exact ⟨_, rfl, sendBits_appendsEvents v n s⟩

/-- Settles O48: each operation is a number of frames or bits, whose events are counted, or leaves the trace. -/
theorem operationsAppendTheListedEvents : Obligations.OperationsAppendTheListedEvents := by
  unfold Obligations.OperationsAppendTheListedEvents
  intro i s hw
  obtain ⟨t, ht, events, htrace, hlength⟩ := exec_appendsEvents i s hw
  exact ⟨t, events, ht, htrace, hlength⟩

end Sys2Proof.Laws
end

/-! The wire rows of the opcode table run as operations (O7, O19): each is the frame it names, which is spelt out bit by
bit. -/

section
namespace Sys2Proof.Laws

open Sys2Proof.Machine

/-! ## A field, bit by bit -/

/-- The binary string of a bit vector is its bits, the most significant first (R9). -/
theorem binBits_toNat {k : Nat} (x : BitVec k) :
    binBits k x.toNat = (List.range k).map fun i => x.getLsbD (k - 1 - i) := rfl

/-- Format W-CMD, bit by bit (R66). -/
theorem commandBits_bits (cfg : Config) (h : cfg.FixedWire) (c : Byte) (p : Bool) :
    commandBits cfg c p = [true, false, false, c.getLsbD 7, c.getLsbD 6, c.getLsbD 5, c.getLsbD 4, c.getLsbD 3,
      c.getLsbD 2, c.getLsbD 1, c.getLsbD 0, p] := by
  rw [commandBits_eq cfg h, binBits_toNat]
  rfl

/-- Format W-WR, bit by bit (R67). -/
theorem dataFrameBits_bits (cfg : Config) (h : cfg.FixedWire) (m : Tag) (a : BitVec 6) (d : Byte) :
    dataFrameBits cfg m a.toNat d = [m.getLsbD 2, m.getLsbD 1, m.getLsbD 0, a.getLsbD 5, a.getLsbD 4, a.getLsbD 3,
      a.getLsbD 2, a.getLsbD 1, a.getLsbD 0, d.getLsbD 7, d.getLsbD 6, d.getLsbD 5, d.getLsbD 4, d.getLsbD 3,
      d.getLsbD 2, d.getLsbD 1, d.getLsbD 0] := by
  rw [dataFrameBits_eq cfg h, binBits_toNat, binBits_toNat, binBits_toNat]
  rfl

/-! ## The wire rows and the named rows -/

theorem exec_wCmd (c : Byte) (p : Bool) (s : State) (h : s.cfg.FixedWire) :
    exec (.wCmd c p) s = .next (afterCommandFrame c p s) := congrArg Host.Outcome.next (commandFrame_eq c p s h)

theorem exec_wWr (m : Tag) (a : BitVec 6) (d : Byte) (s : State) (h : s.cfg.FixedWire) :
    exec (.wWr m a d) s = .next (afterDataFrame m a.toNat d s) :=
  congrArg Host.Outcome.next (sendData_eq a.toNat d m s h)

/-- Settles O7: each wire row is the frame of the frame encoder, and its fields are the bits of their operands. -/
theorem wireRowsEmitTheirFrames : Obligations.WireRowsEmitTheirFrames := by
  unfold Obligations.WireRowsEmitTheirFrames
  exact ⟨fun c p s hw => ⟨exec_wCmd c p s hw, commandBits_bits _ hw c p⟩,
    fun m a d s hw => ⟨exec_wWr m a d s hw, dataFrameBits_bits _ hw m a d⟩⟩

/-- Settles O19: a named row is the row W-CMD with the code its configuration gives it. -/
theorem namedCommandsEmitTheirFrames : Obligations.NamedCommandsEmitTheirFrames := by
  unfold Obligations.NamedCommandsEmitTheirFrames
  intro p s hw
  have hrow (code : Byte) : exec (.wCmd code p) s = .next (afterCommandFrame code p s) := exec_wCmd code p s hw
  exact ⟨hrow s.cfg.cmdSysEn, hrow s.cfg.cmdOsc, hrow s.cfg.cmdBias, hrow s.cfg.cmdLcdOn, hrow s.cfg.cmdLcdOff⟩

end Sys2Proof.Laws
end
